-- ==== Sys2Proof/Word.lean ====
section
/-! DEFINITION. The word types of the block: register words, bytes, frequency fields, byte offsets
of the register window, and binary64 bit patterns (00_scope.md R8, R10, R11). -/

namespace Sys2Proof

/-- A register or bus data word: `REG_WIDTH` = 32 bits, bit 0 least significant (00_scope.md R8, R10). -/
abbrev Word := BitVec 32

/-- A byte lane, and an 8-bit unsigned PCM sample (00_scope.md R9). -/
abbrev Byte := BitVec 8

/-- A frequency field: `FREQ_WIDTH` = 16 bits, unsigned Hz (00_scope.md R8). -/
abbrev Freq := BitVec 16

/-- A byte offset in the register window: `ADDR_WIDTH` = 6 bits, 0x00 to 0x3F (00_scope.md R8,
20_memory.md R70). The block decodes only the offset. -/
abbrev Offset := BitVec 6

/-- An IEEE 754 binary64 value, by its bit pattern (00_scope.md R11). -/
abbrev F64 := BitVec 64

/-- The model's carrier of the OPEN parameter `SIN64` (40_oscillator.md R134): pairs
(argument, value) at which this block's sine differs from the reference sine. -/
abbrev SineRom := List (F64 × F64)

end Sys2Proof
end

