-- ==== Sys2Proof/Config.lean ====
section
/-! DEFINITION. The implementation parameters of 00_scope.md R8 that are fixed for a model instance
(10_state.md R50), each at the value the spec chooses as its reference. The widths stand in
Sys2Proof/Word.lean. The one parameter the spec leaves OPEN, `SIN64`, is not a constant here: it is
the State field `sineRom`, so that a statement about every state is a statement about every
admitted sine (log entry 3). -/

namespace Sys2Proof

/-- The number systems of the datapath (00_scope.md R8, `NUMERICS`). -/
inductive Numerics where
  /-- IEEE 754 binary64, in the order of operations of 40_oscillator.md R133, 41_mixer.md R150 and
  42_quantizer.md R162. -/
  | ref64
  /-- Exact real arithmetic (40_oscillator.md R135). -/
  | real
  deriving DecidableEq, Repr

/-- `NUMERICS` of the machine `Sys2Proof.core`: the reference configuration (00_scope.md R8). The
`real` configuration is in Sys2Proof/Machine/RealNumerics.lean (log entry 5). -/
def Config.numerics : Numerics := .ref64

/-- `PI_CONST`: the binary64 value nearest π (00_scope.md R8, 92_eei_decisions.md D4). -/
def Config.piConst : F64 := 0x400921FB54442D18#64

/-- `SCALE_ONE`: the AMP_SCALE code of amplitude scale 1.0 (00_scope.md R8, 10_state.md R38). -/
def Config.scaleOne : Word := 0x00010000#32

/-- The sample of silence, the center of the 8-bit PCM range (43_sample_commands.md R185,
10_state.md R43). -/
def Config.silence : Byte := 0x80#8

end Sys2Proof
end

