-- ==== Sys2Proof/Syntax.lean ====
section
/-! DEFINITION. The commands of the block (one constructor per row of spec/opcode_table.json), the
registers' names, the host's accesses and the inputs the outside world gives the block. -/

namespace Sys2Proof

/-- The commands (30_encoding.md R104). `inc` is the INC bit: post-increment INDEX after the sample
(R102). NOP and SRST have no INC field: their words with INC set are illegal (R106). No command has
an immediate or a register number (R108). -/
inductive Instr where
  /-- No operation (44_control_commands.md R210). -/
  | nop
  /-- Dual-tone sample (43_sample_commands.md R182). -/
  | dual (inc : Bool)
  /-- Single-frequency sine sample (43_sample_commands.md R183). -/
  | single (inc : Bool)
  /-- Sawtooth sample (43_sample_commands.md R184). -/
  | saw (inc : Bool)
  /-- Silence sample (43_sample_commands.md R185). -/
  | silence (inc : Bool)
  /-- Soft reset (44_control_commands.md R211). -/
  | srst
  deriving DecidableEq, Repr

/-- The register names (10_state.md R31). -/
inductive Reg where
  | cmd | status | faultCmd | sampleRate | ampScale | freqA | freqB | index | sampleOut | sampleCount
  deriving DecidableEq, Repr

/-- One host access to the register window (20_memory.md R71). An access of a width or an alignment
outside the interface (R72) can be written here, so that the model can refuse it. -/
inductive Access where
  /-- A read of `width` bytes at byte offset `addr`. -/
  | read (addr : Offset) (width : Nat)
  /-- A write of the bytes `lanes`, the byte at the lowest address first (20_memory.md R73). -/
  | write (addr : Offset) (lanes : List Byte)
  deriving DecidableEq, Repr

/-- What the outside world can do to the block: the host's accesses (00_scope.md R7) and the `rst`
input's level, which the platform drives (70_reset_and_hazards.md R270). -/
inductive Input where
  | access (a : Access)
  | rst (level : Bool)
  deriving DecidableEq, Repr

/-- A line of the host program notation (30_encoding.md R109, R110). -/
inductive HostLine where
  /-- `wr <REG>, <value>` -/
  | wr (r : Reg) (v : Word)
  /-- `rd <REG>` -/
  | rd (r : Reg)
  /-- `<MNEMONIC>[.inc]` -/
  | command (i : Instr)
  /-- `TONE fA, fB` -/
  | tone (fA fB : Word)
  /-- `SEEK n` -/
  | seek (n : Word)
  deriving DecidableEq, Repr

end Sys2Proof
end

