-- ==== Sys2Proof/Machine/State.lean ====
section
/-! DEFINITION. The state of the block as plain data (10_state.md R30 to R49), the reasons a step can
stop, and the state after reset (70_reset_and_hazards.md R271, R273). -/

namespace Sys2Proof.Machine

/-- The fault causes of a command (60_exceptions.md R231). -/
inductive Cause where
  /-- The word is no command (R232). -/
  | badCmd
  /-- SAMPLE_RATE is 0 (R233). -/
  | zeroRate
  /-- Exactly one of FREQ_A, FREQ_B is 0 (R234). -/
  | pair
  /-- A frequency the command uses is 0 (R235). -/
  | zeroFreq
  deriving DecidableEq, Repr

/-- What STATUS stores (10_state.md R33): the four sticky fault bits and FAULT_CODE. HALTED is not
stored (R34) and the reserved bits always read 0. -/
structure Status where
  /-- Bit [1], F_BAD_CMD. -/
  badCmd : Bool
  /-- Bit [2], F_ZERO_RATE. -/
  zeroRate : Bool
  /-- Bit [3], F_PAIR. -/
  pair : Bool
  /-- Bit [4], F_ZERO_FREQ. -/
  zeroFreq : Bool
  /-- Bits [11:8], FAULT_CODE. -/
  faultCode : BitVec 4
  deriving DecidableEq, Repr

/-- No fault recorded: STATUS reads 0x00000000. -/
def Status.clear : Status :=
  { badCmd := false, zeroRate := false, pair := false, zeroFreq := false, faultCode := 0#4 }

/-- The whole machine: the block's registers and output stream (10_state.md R30, R31, R45), its `rst`
input (70_reset_and_hazards.md R270), and the model's own fields `inputs`, `reads` and `sineRom`
(log entries 1, 2, 3). CMD holds nothing (R32), and the ports are functions of registers. -/
structure State where
  /-- STATUS (10_state.md R33). -/
  status : Status
  /-- FAULT_CMD (10_state.md R35). -/
  faultCmd : Word
  /-- SAMPLE_RATE (10_state.md R37). -/
  sampleRate : Word
  /-- AMP_SCALE (10_state.md R38). -/
  ampScale : Word
  /-- FREQ_A, bits [15:0] (10_state.md R39). -/
  freqA : Freq
  /-- FREQ_B, bits [15:0] (10_state.md R40). -/
  freqB : Freq
  /-- INDEX (10_state.md R41). -/
  index : Word
  /-- SAMPLE_OUT, bits [7:0] (10_state.md R43). -/
  sampleOut : Byte
  /-- SAMPLE_COUNT (10_state.md R44). -/
  sampleCount : Word
  /-- OUT, oldest sample first (10_state.md R45). -/
  out : List Byte
  /-- The level of the `rst` input (70_reset_and_hazards.md R270). -/
  rst : Bool
  /-- Model's own: what the host and the platform do next, oldest first (log entry 1). -/
  inputs : List Input
  /-- Model's own: the words reads have returned to the host, oldest first (log entry 2). -/
  reads : List Word
  /-- Model's own: the OPEN parameter `SIN64` of this block (log entry 3). -/
  sineRom : SineRom
  deriving DecidableEq, Repr

/-- The reasons a step stops for good: none. The block's faults are next states that record the
fault and halt the block (60_exceptions.md R236, R239), never an end of the machine. -/
inductive Fault where
  deriving DecidableEq, Repr

/-- Why a step has no meaning. -/
inductive Refusal where
  /-- Raised by an arm of `exec` that has no meaning yet; no arm of this model raises it. Safe. -/
  | notModelled (mnemonic : String)
  /-- Raised by the host port for an access that is not 32 bits wide: the spec gives it no meaning
  and a model refuses it (20_memory.md R72). Safe. -/
  | accessNotWord
  /-- Raised by the host port for an access at an offset that is no multiple of 4: the spec gives it
  no meaning and a model refuses it (20_memory.md R72). Safe. -/
  | accessMisaligned
  deriving DecidableEq, Repr

/-- The state right after reset: every register at its reset value and OUT empty
(70_reset_and_hazards.md R271, R273); the model's own fields are empty (log entries 1, 2, 3). -/
def State.reset : State :=
  { status := Status.clear
    faultCmd := 0x00000000#32
    sampleRate := 0x00000000#32
    ampScale := 0x00000000#32
    freqA := 0x0000#16
    freqB := 0x0000#16
    index := 0x00000000#32
    sampleOut := 0x80#8
    sampleCount := 0x00000000#32
    out := []
    rst := false
    inputs := []
    reads := []
    sineRom := [] }

end Sys2Proof.Machine
end

