-- ==== Sys2Proof/Machine/Flags.lean ====
section
/-! DEFINITION. STATUS: HALTED, the fault bits and FAULT_CODE (10_state.md R33, R34, R46, R47;
60_exceptions.md R231, R236). -/

namespace Sys2Proof.Machine

/-- The cause code, the value of FAULT_CODE (60_exceptions.md R231). -/
def causeCode : Cause → BitVec 4
  | .badCmd => 1#4
  | .zeroRate => 2#4
  | .pair => 3#4
  | .zeroFreq => 4#4

/-- STATUS.HALTED: the OR of the four fault bits (10_state.md R34). -/
def statusHalted (t : Status) : Bool := t.badCmd || t.zeroRate || t.pair || t.zeroFreq

/-- STATUS as a host reads it, every reserved bit 0 (10_state.md R33): bits [31:12] reserved,
[11:8] FAULT_CODE, [7:5] reserved, [4:1] the fault bits, [0] HALTED. -/
def statusWord (t : Status) : Word :=
  0#20 ++ t.faultCode ++ 0#3 ++ BitVec.ofBool t.zeroFreq ++ BitVec.ofBool t.pair
    ++ BitVec.ofBool t.zeroRate ++ BitVec.ofBool t.badCmd ++ BitVec.ofBool (statusHalted t)

/-- Sets the sticky bit of one cause (60_exceptions.md R231, R236). -/
def setCause (t : Status) : Cause → Status
  | .badCmd => { t with badCmd := true }
  | .zeroRate => { t with zeroRate := true }
  | .pair => { t with pair := true }
  | .zeroFreq => { t with zeroFreq := true }

/-- `min(codes)`, the cause code of highest priority (60_exceptions.md R231, R236); 0 of no code. -/
def minCode : List Cause → BitVec 4
  | [] => 0#4
  | c :: rest =>
    if minCode rest ≠ 0#4 ∧ minCode rest < causeCode c then minCode rest else causeCode c

/-- STATUS after fault entry: the bit of every cause set, FAULT_CODE the highest priority
(60_exceptions.md R236). -/
def recordCauses (codes : List Cause) (t : Status) : Status :=
  { codes.foldl setCause t with faultCode := minCode codes }

/-- The block is halted (10_state.md R34, 60_exceptions.md R239). -/
def State.halted (s : State) : Bool := statusHalted s.status

/-- The `fault` output port: a level equal to HALTED (10_state.md R46, 60_exceptions.md R241). -/
def State.faultPort (s : State) : Bool := s.halted

/-- The `sample_out[7:0]` output port: always SAMPLE_OUT[7:0] (10_state.md R45). -/
def State.sampleOutPort (s : State) : Byte := s.sampleOut

end Sys2Proof.Machine
end

