-- ==== Sys2Proof/Machine/Float64.lean ====
section
/-! DEFINITION. Binary64 arithmetic with round to nearest, ties to even (00_scope.md R11): the
operations the REF64 datapath uses. A finite binary64 value is a whole number of units of 2^-1074,
so every operation is computed exactly on integers and rounded once by `fl`. What IEEE 754 says of
NaN and infinity is taken from general knowledge (log entry 7); the datapath never reaches either
(40_oscillator.md R133, 42_quantizer.md R168). -/

namespace Sys2Proof.F64

/-- The number of units of 2^-1074 in 1.0. -/
@[irreducible] def unitsPerOne : Nat := 2 ^ 1074

/-- The sign bit. -/
def isNeg (x : F64) : Bool := x.msb

/-- The 63 bits below the sign, as a number. It orders the absolute values. -/
def mag (x : F64) : Nat := x.toNat % 2 ^ 63

/-- The magnitude of infinity: exponent field all ones, fraction 0. -/
def infMag : Nat := 0x7FF0000000000000

/-- The magnitude of 1.0. -/
def oneMag : Nat := 0x3FF0000000000000

def isNaN (x : F64) : Bool := infMag < mag x

def isInf (x : F64) : Bool := mag x == infMag

def isFinite (x : F64) : Bool := mag x < infMag

def isZero (x : F64) : Bool := mag x == 0

/-- The value lies in [-1, 1]. -/
def inUnit (x : F64) : Bool := mag x ≤ oneMag

/-- The bit pattern of a sign and a magnitude. -/
def pack (neg : Bool) (m : Nat) : F64 :=
  BitVec.ofNat 64 (if neg then 2 ^ 63 + m else m)

/-- The default NaN. -/
def nan : F64 := 0x7FF8000000000000#64

/-- The absolute value of a finite magnitude, in units of 2^-1074: a subnormal's fraction, or a
normal's significand shifted by its exponent. -/
def magUnits (m : Nat) : Nat :=
  if m / 2 ^ 52 = 0 then m else (2 ^ 52 + m % 2 ^ 52) * 2 ^ (m / 2 ^ 52 - 1)

/-- The exact value of a finite `x`, in units of 2^-1074. -/
def units (x : F64) : Int :=
  if isNeg x then -(magUnits (mag x) : Int) else (magUnits (mag x) : Int)

/-- `n / d` rounded to the nearest integer, ties to even. -/
def roundHalfEven (n d : Nat) : Nat :=
  if 2 * (n % d) < d then n / d
  else if d < 2 * (n % d) then n / d + 1
  else n / d + n / d % 2

/-- The magnitude nearest `n / d` units of 2^-1074, ties to even, with no bound on the exponent: the
quotient is rounded at its 53rd significant bit, or at the unit where it has fewer bits. -/
def roundMag (n d : Nat) : Nat :=
  let k := (n / d).log2 - 52
  k * 2 ^ 52 + roundHalfEven n (d * 2 ^ k)

/-- `fl(e)` for `e` = `n / d` units of 2^-1074 with the given sign (00_scope.md R11); a value that
rounds past the largest finite one is infinite. -/
def fl (neg : Bool) (n d : Nat) : F64 := pack neg (min (roundMag n d) infMag)

/-- `toF(n)`: an integer converted to binary64 (00_scope.md R11). -/
def ofNat (n : Nat) : F64 := fl false (n * unitsPerOne) 1

/-- `fl(a + b)`. An exact zero sum is +0, but -0 where both operands are negative zeros. -/
def add (a b : F64) : F64 :=
  if isNaN a || isNaN b then nan
  else if isInf a then (if isInf b && isNeg a != isNeg b then nan else a)
  else if isInf b then b
  else if units a + units b = 0 then pack (isNeg a && isNeg b) 0
  else fl (decide (units a + units b < 0)) (units a + units b).natAbs 1

/-- `fl(a * b)`. -/
def mul (a b : F64) : F64 :=
  if isNaN a || isNaN b then nan
  else if isInf a || isInf b then
    (if isZero a || isZero b then nan else pack (isNeg a != isNeg b) infMag)
  else fl (isNeg a != isNeg b) (magUnits (mag a) * magUnits (mag b)) unitsPerOne

/-- `fl(a / b)`. -/
def div (a b : F64) : F64 :=
  if isNaN a || isNaN b then nan
  else if isInf a then (if isInf b then nan else pack (isNeg a != isNeg b) infMag)
  else if isInf b then pack (isNeg a != isNeg b) 0
  else if isZero b then (if isZero a then nan else pack (isNeg a != isNeg b) infMag)
  else fl (isNeg a != isNeg b) (magUnits (mag a) * unitsPerOne) (magUnits (mag b))

end Sys2Proof.F64
end

