-- ==== Sys2Proof/Machine/Mixer.lean ====
section
/-! DEFINITION. The Tone Mixer under REF64 (41_mixer.md R150). -/

namespace Sys2Proof

/-- `M(a, b) = fl(fl(a + b) / 2)` (41_mixer.md R150). No gain makes up for the halving (R153). -/
def mix (a b : F64) : F64 := F64.div (F64.add a b) (F64.ofNat 2)

end Sys2Proof
end

