-- ==== Sys2Proof/Machine/Sine.lean ====
section
/-! DEFINITION. The OPEN parameter `SIN64` of the REF64 datapath (00_scope.md R8, 40_oscillator.md
R134): the reference sine, and the sine of a block whose sine differs from it at the arguments
listed in `sineRom`. Every sine given here obeys the laws 1 to 3 of R134 by construction. -/

namespace Sys2Proof

/-- The integer part of (π / 2) * 2^1344 (log entry 9). -/
def halfPiFixed : Nat :=
  0x1921fb54442d18469898cc51701b839a252049c1114cf98e804177d4c76273644a29410f31c6809bbdf2a33679a748636605614dbe4be286e9fc26adadaa3848bc90b6aecc4bcfd8de89885d34c6fdad617feb96de80d6fdbdc70d7f6b5133f4b5d3e4822f8963fcc9250cca3d9c8b67b8400f97142c77e0b31b4906c38aba734d22c7f51fa499ebf06caba47b9475b2c38c5e6ac410aa5773daa520ee12d2cdace186a9c95793009

/-- The first `n` factors of the sine's series from the `j`-th on, nested, in units of 2^-320:
`1 - r2 / (2j (2j+1)) * (1 - r2 / ((2j+2) (2j+3)) * ...)`. -/
def sineTail (r2 : Nat) : Nat → Nat → Nat
  | 0, _ => 2 ^ 320
  | n + 1, j => 2 ^ 320 - r2 * sineTail r2 n (j + 1) / (2 ^ 320 * ((2 * j) * (2 * j + 1)))

/-- The sine of an angle in [0, π/2] given in units of 2^-320, in units of 2^-320. -/
def quarterSine (rho : Nat) : Nat :=
  rho * sineTail (rho * rho / 2 ^ 320) 40 1 / 2 ^ 320

/-- The number of whole quarter turns in `n` units of 2^-1074 radians. -/
def quarterTurns (n : Nat) : Nat := n * 2 ^ 270 / halfPiFixed

/-- The angle in [0, π/2] whose sine is the absolute value of the sine of `n` units of 2^-1074
radians, in units of 2^-320. -/
def quarterAngle (n : Nat) : Nat :=
  let rest := n * 2 ^ 270 % halfPiFixed
  (if quarterTurns n % 2 = 0 then rest else halfPiFixed - rest) / 2 ^ 1024

/-- The magnitude of 2^-27: at or below it the nearest binary64 to the sine is the argument. -/
def tinyMag : Nat := 0x3E40000000000000

/-- The reference sine, `fl(sin(x))` with `x` read as an exact real (40_oscillator.md R134, law 4),
computed to about 310 bits and rounded once (log entry 9). It is never beyond 1 (law 2) and takes
+0 to +0 (law 1). Model's choice (log entry 7): at -0 it is -0, where law 4 fixes the value 0 and not
its sign. A sine of a NaN or an infinity is a NaN (log entry 8). -/
def sinReference (x : F64) : F64 :=
  if !F64.isFinite x then F64.nan
  else if F64.mag x ≤ tinyMag then x
  else
    let n := F64.magUnits (F64.mag x)
    let m := F64.roundMag (quarterSine (quarterAngle n) * 2 ^ 754) 1
    F64.pack (F64.isNeg x != decide (2 ≤ quarterTurns n % 4)) (min m F64.oneMag)

/-- `SIN64` of a block (40_oscillator.md R134). An entry of the block's `sineRom` gives the value at
its argument, except where it would break law 1 (`SIN64(+0) = +0`) or law 2 (the value of a finite
argument lies in [-1, 1]); elsewhere the value is the reference's (log entry 3). -/
def sin64 (rom : SineRom) (x : F64) : F64 :=
  if x = 0#64 then 0#64
  else
    match rom.lookup x with
    | some v => if F64.isFinite x && !F64.inUnit v then sinReference x else v
    | none => sinReference x

end Sys2Proof
end

