-- ==== Sys2Proof/Machine/Oscillator.lean ====
section
/-! DEFINITION. The Tone Oscillator under REF64 (40_oscillator.md R130 to R134). -/

namespace Sys2Proof

/-- `cadence` under REF64 (40_oscillator.md R133): `fl(fl(toF(r) / toF(f)) / (2 * PI_CONST))`, the
doubling being exact. -/
def cadence (pi : F64) (f : Freq) (r : Word) : F64 :=
  F64.div (F64.div (F64.ofNat r.toNat) (F64.ofNat f.toNat)) (F64.mul (F64.ofNat 2) pi)

/-- `phase` under REF64 (40_oscillator.md R133): `fl(toF(i) / cad)`. -/
def phase (pi : F64) (i : Word) (f : Freq) (r : Word) : F64 :=
  F64.div (F64.ofNat i.toNat) (cadence pi f r)

/-- `T(i, f, r)` under REF64, of the parameters `PI_CONST` and `SIN64` (40_oscillator.md R131, R133).
It depends on `(i, f, r)` alone (R132). The commands never evaluate it with `f` or `r` 0 (R136). -/
def tone (pi : F64) (sine : F64 → F64) (i : Word) (f : Freq) (r : Word) : F64 :=
  sine (phase pi i f r)

end Sys2Proof
end

