-- ==== Sys2Proof/Machine/Quantizer.lean ====
section
/-! DEFINITION. The Sample Quantizer under REF64 (42_quantizer.md R160 to R164). -/

namespace Sys2Proof

/-- `round_ha` of the exact value `n / d`: the nearest integer, a half away from zero
(42_quantizer.md R163; the parameter `ROUND` of 00_scope.md R8). Integer division rounds down. -/
def roundHa (n : Int) (d : Nat) : Int :=
  if 0 ≤ n then (2 * n + d) / (2 * d) else -((2 * -n + d) / (2 * d))

/-- `clamp(v, 0, 255)` as an 8-bit sample (00_scope.md R12, 42_quantizer.md R164). -/
def clampSample (v : Int) : Byte := BitVec.ofNat 8 (min (max v 0) 255).toNat

/-- `y` under REF64 (42_quantizer.md R162): `fl(fl(sig * 128.0) * fl(toF(k) / 65536.0))`. -/
def scaledSignal (sig : F64) (k : Word) : F64 :=
  F64.mul (F64.mul sig (F64.ofNat 128)) (F64.div (F64.ofNat k.toNat) (F64.ofNat 65536))

/-- `Q(sig, k)`: `clamp(128 + round_ha(y), 0, 255)`, rounding the exact value of `y` once to an
integer (42_quantizer.md R161, R163, R164). `sig` is never a NaN or an infinity (R168; log entry 8). -/
def quantize (sig : F64) (k : Word) : Byte :=
  clampSample (128 + roundHa (F64.units (scaledSignal sig k)) F64.unitsPerOne)

end Sys2Proof
end

