-- ==== Sys2Proof/Machine/Operands.lean ====
section
/-! DEFINITION. What is read from the registers: the register map, a host's read, the fault checks of
a command and the samples the commands compute from the registers as they are (30_encoding.md R108;
43_sample_commands.md R180). -/

namespace Sys2Proof.Machine

/-- The byte offset of a register (10_state.md R31). -/
def regOffset : Reg → Offset
  | .cmd => 0x00#6
  | .status => 0x04#6
  | .faultCmd => 0x08#6
  | .sampleRate => 0x0C#6
  | .ampScale => 0x10#6
  | .freqA => 0x14#6
  | .freqB => 0x18#6
  | .index => 0x1C#6
  | .sampleOut => 0x20#6
  | .sampleCount => 0x24#6

/-- The register at a byte offset; offsets 0x28 to 0x3C hold none (10_state.md R31, 20_memory.md R74). -/
def regAt (a : Offset) : Option Reg :=
  match a.toNat with
  | 0x00 => some .cmd
  | 0x04 => some .status
  | 0x08 => some .faultCmd
  | 0x0C => some .sampleRate
  | 0x10 => some .ampScale
  | 0x14 => some .freqA
  | 0x18 => some .freqB
  | 0x1C => some .index
  | 0x20 => some .sampleOut
  | 0x24 => some .sampleCount
  | _ => none

/-- The word a register reads as, unimplemented bits as 0 (20_memory.md R78; 10_state.md R39, R40,
R43). CMD holds nothing and reads 0 (10_state.md R32). -/
def readReg (s : State) : Reg → Word
  | .cmd => 0#32
  | .status => statusWord s.status
  | .faultCmd => s.faultCmd
  | .sampleRate => s.sampleRate
  | .ampScale => s.ampScale
  | .freqA => s.freqA.setWidth 32
  | .freqB => s.freqB.setWidth 32
  | .index => s.index
  | .sampleOut => s.sampleOut.setWidth 32
  | .sampleCount => s.sampleCount

/-- The word a host's read at an offset returns: 0 where there is no register (20_memory.md R74, R78). -/
def readOffset (a : Offset) (s : State) : Word :=
  match regAt a with
  | some r => readReg s r
  | none => 0#32

/-- The causes of the checks that hold, in the order of priority. -/
def causesOf (checks : List (Bool × Cause)) : List Cause :=
  (checks.filter (·.1)).map (·.2)

/-- The checks of DUAL (43_sample_commands.md R182; 60_exceptions.md R233, R234, R235). -/
def dualCauses (s : State) : List Cause :=
  causesOf
    [ (s.sampleRate == 0#32, .zeroRate)
    , ((s.freqA == 0#16) != (s.freqB == 0#16), .pair)
    , (s.freqA == 0#16 || s.freqB == 0#16, .zeroFreq) ]

/-- The checks of SINGLE, which never raises PAIR and does not read FREQ_B (43_sample_commands.md
R183; 60_exceptions.md R233, R235). -/
def singleCauses (s : State) : List Cause :=
  causesOf
    [ (s.sampleRate == 0#32, .zeroRate)
    , (s.freqA == 0#16, .zeroFreq) ]

/-- The tone of a frequency register, from INDEX and SAMPLE_RATE, by this block's sine
(40_oscillator.md R130, R133). -/
def toneOf (f : Freq) (s : State) : F64 :=
  tone Config.piConst (sin64 s.sineRom) s.index f s.sampleRate

/-- The sample of DUAL, `Q(M(T(i,fA,r), T(i,fB,r)), k)` (43_sample_commands.md R182). -/
def dualSample (s : State) : Byte :=
  quantize (mix (toneOf s.freqA s) (toneOf s.freqB s)) s.ampScale

/-- The sample of SINGLE, `Q(T(i,fA,r), k)`, with no mixer (43_sample_commands.md R183). -/
def singleSample (s : State) : Byte :=
  quantize (toneOf s.freqA s) s.ampScale

/-- The sample of SAW, `i mod 256` = INDEX[7:0] (43_sample_commands.md R184). -/
def sawSample (s : State) : Byte := s.index.setWidth 8

end Sys2Proof.Machine
end

