-- ==== Sys2Proof/Machine/Ops.lean ====
section
/-! DEFINITION. The operations that change the state, each written once: fault entry, leaving the
halted state (reset), the commit of a sample, a register write, and the rule that a halted block
does nothing. -/

namespace Sys2Proof.Machine

/-- Fault entry, `raise Fault(codes, w)` (60_exceptions.md R236): the bit of every cause, FAULT_CODE
of the highest priority and FAULT_CMD, and nothing else (R237). HALTED follows (10_state.md R34). -/
def raiseFault (codes : List Cause) (w : Word) (s : State) : State :=
  { s with status := recordCauses codes s.status, faultCmd := w }

/-- `reset()`, the only way out of the halted state (60_exceptions.md R240): every register takes its
reset value (70_reset_and_hazards.md R271), and OUT is not touched (R272). The model's own fields
are no registers and stay. -/
def resetRegisters (s : State) : State :=
  { s with
    status := State.reset.status
    faultCmd := State.reset.faultCmd
    sampleRate := State.reset.sampleRate
    ampScale := State.reset.ampScale
    freqA := State.reset.freqA
    freqB := State.reset.freqB
    index := State.reset.index
    sampleOut := State.reset.sampleOut
    sampleCount := State.reset.sampleCount }

/-- `emit(s)` with SAMPLE_OUT: the register takes the sample, OUT gets it appended and the
`sample_out` port carries it (10_state.md R43, R45). -/
def emit (sample : Byte) (s : State) : State :=
  { s with sampleOut := sample, out := s.out ++ [sample] }

/-- The commit of a sample command (43_sample_commands.md R181); INDEX and SAMPLE_COUNT wrap modulo
2^32 (R186, R187). -/
def commit (sample : Byte) (inc : Bool) (s : State) : State :=
  { emit sample s with
    sampleCount := s.sampleCount + 1#32
    index := if inc then s.index + 1#32 else s.index }

/-- A halted block ignores what is written to it: `s` stays; otherwise `after` is the next state
(60_exceptions.md R239, 20_memory.md R77). -/
def unlessHalted (s after : State) : State := if s.halted then s else after

/-- The three phases of a sample command (43_sample_commands.md R180): its checks, and if none
applies the commit of its sample, else one fault with every cause that applies
(60_exceptions.md R237, R238). -/
def sampleCommand (codes : List Cause) (sample : Byte) (w : Word) (inc : Bool) (s : State) : State :=
  if codes = [] then commit sample inc s else raiseFault codes w s

/-- The effect of a register write on a block that is not halted, with the value its rule keeps
(20_memory.md R76); no effect on a read-only register (R75) or where there is no register (R74). A
write to CMD is no register write: it executes a command (10_state.md R32). -/
def writeReg (a : Offset) (v : Word) (s : State) : State :=
  match regAt a with
  | some .sampleRate => { s with sampleRate := v }
  | some .ampScale => { s with ampScale := if v ≤ Config.scaleOne then v else Config.scaleOne }
  | some .freqA => { s with freqA := v.setWidth 16 }
  | some .freqB => { s with freqB := v.setWidth 16 }
  | some .index => { s with index := v }
  | some .cmd => s
  | some .status => s
  | some .faultCmd => s
  | some .sampleOut => s
  | some .sampleCount => s
  | none => s

end Sys2Proof.Machine
end

