-- ==== Sys2Proof/Machine/ControlCommands.lean ====
section
/-! DEFINITION. The meanings of the commands that emit no sample (44_control_commands.md R210, R211). -/

namespace Sys2Proof.Machine

/-- NOP: no effect, halted or not (44_control_commands.md R210). -/
def execNop (s : State) : Host.Outcome State Fault Refusal := .next s

/-- SRST: the reset, accepted while halted as well (44_control_commands.md R211, 60_exceptions.md
R239, R240). -/
def execSrst (s : State) : Host.Outcome State Fault Refusal := .next (resetRegisters s)

end Sys2Proof.Machine
end

