-- ==== Sys2Proof/Machine/ByteLanes.lean ====
section
/-! DEFINITION. Little-endian byte lanes of a register word (20_memory.md R73). -/

namespace Sys2Proof.Machine

/-- The four byte lanes of a word, bits [7:0] first, at the lowest address (20_memory.md R73). -/
def lanesOf (w : Word) : List Byte :=
  [w.extractLsb' 0 8, w.extractLsb' 8 8, w.extractLsb' 16 8, w.extractLsb' 24 8]

/-- The word of exactly four byte lanes, the first one being bits [7:0]; there is no other width
(20_memory.md R71, R72, R73). -/
def wordOfLanes : List Byte → Option Word
  | [b0, b1, b2, b3] => some (b3 ++ b2 ++ b1 ++ b0)
  | _ => none

end Sys2Proof.Machine
end

