-- ==== Sys2Proof/WellFormed.lean ====
section
/-! DEFINITION. The checks of a command word (30_encoding.md R103, R104, R106) and of a host access
(20_memory.md R71, R72). Every term of `Instr` is well-formed by its type: NOP and SRST carry no
INC field, so no term stands for an illegal word. -/

namespace Sys2Proof

/-- RSVD, bits [31:5], is 0 (30_encoding.md R103). -/
def CmdWord.rsvdZero (w : Word) : Bool := w &&& 0xFFFFFFE0#32 == 0#32

/-- OP, bits [3:0], is an assigned operation: 0x0 to 0x4 or 0xF (30_encoding.md R104, R107). -/
def CmdWord.opAssigned (w : Word) : Bool :=
  let op := (w &&& 0xF#32).toNat
  op ≤ 4 || op == 15

/-- INC, bit [4], is 0 where OP is NOP or SRST (30_encoding.md R102, R106). -/
def CmdWord.incAllowed (w : Word) : Bool :=
  let op := (w &&& 0xF#32).toNat
  !w.getLsbD 4 || !(op == 0 || op == 15)

/-- A legal command word (30_encoding.md R105, R106). -/
def CmdWord.wellFormed (w : Word) : Bool :=
  CmdWord.rsvdZero w && CmdWord.opAssigned w && CmdWord.incAllowed w

/-- The number of bytes an access carries. -/
def Access.width : Access → Nat
  | .read _ n => n
  | .write _ lanes => lanes.length

/-- The byte offset of an access. -/
def Access.addr : Access → Offset
  | .read a _ => a
  | .write a _ => a

/-- The access is 32 bits wide (20_memory.md R72). -/
def Access.isWord (a : Access) : Bool := a.width == 4

/-- The offset is a multiple of 4 (20_memory.md R72). -/
def Access.isAligned (a : Access) : Bool := a.addr.toNat % 4 == 0

/-- The access is in the block's interface (20_memory.md R71, R72). -/
def Access.wellFormed (a : Access) : Bool := a.isWord && a.isAligned

end Sys2Proof
end

