-- ==== Sys2Proof/Decode.lean ====
section
/-! DEFINITION. Decoding of a command word, total and rejecting by name, and the encoder
(30_encoding.md R100 to R106). -/

namespace Sys2Proof

/-- Why bytes are no command. Each reason is the one fault BAD_CMD to the block
(30_encoding.md R106, 60_exceptions.md R232); only `notOneWord` is outside its interface, since a
write to CMD carries exactly one word (R100). -/
inductive DecodeError where
  /-- Not the four bytes of one word (30_encoding.md R100). -/
  | notOneWord
  /-- RSVD, bits [31:5], is not 0 (R103). -/
  | reservedBits
  /-- OP is 0x5 to 0xE (R106, R107). -/
  | reservedOp
  /-- INC is 1 on NOP or SRST (R102, R106). -/
  | incNotAllowed
  deriving DecidableEq, Repr

/-- A command that has no INC bit: the word is illegal when INC is set (30_encoding.md R105). -/
def withoutInc (inc : Bool) (i : Instr) : Except DecodeError Instr :=
  if inc then .error .incNotAllowed else .ok i

/-- The decoder on a word written to CMD, without the HALTED test, which stands in the meanings
(30_encoding.md R105; 60_exceptions.md R239). -/
def decode (w : Word) : Except DecodeError Instr :=
  if w.extractLsb' 5 27 ≠ 0#27 then .error .reservedBits
  else
    let inc := w.getLsbD 4
    match (w.extractLsb' 0 4).toNat with
    | 0x0 => withoutInc inc .nop
    | 0x1 => .ok (.dual inc)
    | 0x2 => .ok (.single inc)
    | 0x3 => .ok (.saw inc)
    | 0x4 => .ok (.silence inc)
    | 0xF => withoutInc inc .srst
    | _ => .error .reservedOp

/-- The decoder on bytes as they lie in the window, lowest address first (20_memory.md R73). -/
def decodeBytes (lanes : List Byte) : Except DecodeError Instr :=
  match Machine.wordOfLanes lanes with
  | some w => decode w
  | none => .error .notOneWord

/-- OP, bits [3:0], of a command (30_encoding.md R104). -/
def opField : Instr → BitVec 4
  | .nop => 0x0#4
  | .dual _ => 0x1#4
  | .single _ => 0x2#4
  | .saw _ => 0x3#4
  | .silence _ => 0x4#4
  | .srst => 0xF#4

/-- INC, bit [4], of a command (30_encoding.md R102, R106). -/
def incField : Instr → Bool
  | .nop => false
  | .dual inc => inc
  | .single inc => inc
  | .saw inc => inc
  | .silence inc => inc
  | .srst => false

/-- The command word: RSVD = 0, then INC, then OP (30_encoding.md R100, R104). -/
def encode (i : Instr) : Word :=
  0#27 ++ BitVec.ofBool (incField i) ++ opField i

/-- The decoder on a row of spec/opcode_table.json: `nbits` table bits `w`, all bits above them 0,
laid out as four byte lanes (30_encoding.md R100, 20_memory.md R73). -/
def decodeTableWord (nbits w : Nat) : Option Instr :=
  let v := w % 2 ^ nbits
  if v < 2 ^ 32 then
    match decodeBytes (Machine.lanesOf (BitVec.ofNat 32 v)) with
    | .ok i => some i
    | .error _ => none
  else none

end Sys2Proof
end

