-- ==== Sys2Proof/Machine/SampleCommands.lean ====
section
/-! DEFINITION. The meanings of the commands that emit one sample (43_sample_commands.md R180 to
R189). -/

namespace Sys2Proof.Machine

/-- DUAL (43_sample_commands.md R182). -/
def execDual (inc : Bool) (s : State) : Host.Outcome State Fault Refusal :=
  .next (unlessHalted s (sampleCommand (dualCauses s) (dualSample s) (encode (.dual inc)) inc s))

/-- SINGLE (43_sample_commands.md R183). -/
def execSingle (inc : Bool) (s : State) : Host.Outcome State Fault Refusal :=
  .next (unlessHalted s (sampleCommand (singleCauses s) (singleSample s) (encode (.single inc)) inc s))

/-- SAW, which makes no check (43_sample_commands.md R184). -/
def execSaw (inc : Bool) (s : State) : Host.Outcome State Fault Refusal :=
  .next (unlessHalted s (sampleCommand [] (sawSample s) (encode (.saw inc)) inc s))

/-- SILENCE, which makes no check (43_sample_commands.md R185). -/
def execSilence (inc : Bool) (s : State) : Host.Outcome State Fault Refusal :=
  .next (unlessHalted s (sampleCommand [] Config.silence (encode (.silence inc)) inc s))

end Sys2Proof.Machine
end

