-- ==== Sys2Proof/Machine/Dispatch.lean ====
section
/-! DEFINITION. The one dispatch from a command to its meaning. -/

namespace Sys2Proof.Machine

def exec (i : Instr) (s : State) : Host.Outcome State Fault Refusal :=
  match i with
  | .nop => Sys2Proof.Machine.execNop s
  | .dual inc => Sys2Proof.Machine.execDual inc s
  | .single inc => Sys2Proof.Machine.execSingle inc s
  | .saw inc => Sys2Proof.Machine.execSaw inc s
  | .silence inc => Sys2Proof.Machine.execSilence inc s
  | .srst => Sys2Proof.Machine.execSrst s

end Sys2Proof.Machine
end

