-- ==== Sys2Proof/Machine/HostPort.lean ====
section
/-! DEFINITION. The block's port to the outside world: the host's accesses (20_memory.md R71 to R81),
the `rst` input (70_reset_and_hazards.md R270), and which of the waiting inputs a step takes. The
meaning of commands is an argument, so that both number systems share the one port. -/

namespace Sys2Proof.Machine

/-- `MemRead(a, 4)` as an access (20_memory.md R71). -/
def memRead (a : Offset) : Access := .read a 4

/-- `MemWrite(a, 4, v)` as an access (20_memory.md R71, R73). -/
def memWrite (a : Offset) (v : Word) : Access := .write a (lanesOf v)

/-- The state that has taken an input, with `rest` left to come. -/
def withInputs (rest : List Input) (s : State) : State := { s with inputs := rest }

/-- A write of `w` to CMD: it executes the command `w` (10_state.md R32); a word that is no command
raises BAD_CMD, alone, unless the block is halted (30_encoding.md R105; 60_exceptions.md R232, R239). -/
def runCommand (meaning : Instr → State → Host.Outcome State Fault Refusal) (w : Word) (s : State) :
    Host.Outcome State Fault Refusal :=
  match decode w with
  | .ok i => meaning i s
  | .error _ => .next (unlessHalted s (raiseFault [.badCmd] w s))

/-- A write of the word `v` in the interface (20_memory.md R76, R77). -/
def performWrite (meaning : Instr → State → Host.Outcome State Fault Refusal) (a : Offset) (v : Word)
    (s : State) : Host.Outcome State Fault Refusal :=
  if a = regOffset .cmd then runCommand meaning v s
  else .next (unlessHalted s (writeReg a v s))

/-- A read in the interface returns its word to the host and changes nothing in the block
(20_memory.md R78); a halted block is read as well (R77). -/
def performRead (a : Offset) (s : State) : State :=
  { s with reads := s.reads ++ [readOffset a s] }

/-- One host access, one whole transaction (20_memory.md R71). An access of another width or at an
offset that is no multiple of 4 has no meaning and is refused (R72). -/
def performAccess (meaning : Instr → State → Host.Outcome State Fault Refusal) (a : Access)
    (s : State) : Host.Outcome State Fault Refusal :=
  if !a.isWord then .refused .accessNotWord
  else if !a.isAligned then .refused .accessMisaligned
  else
    match a with
    | .read o _ => .next (performRead o s)
    | .write o lanes =>
      match wordOfLanes lanes with
      | some v => performWrite meaning o v s
      | none => .refused .accessNotWord

/-- The platform drives `rst`: the reset takes effect when an asserted `rst` is released
(70_reset_and_hazards.md R270). -/
def driveRst (level : Bool) (s : State) : State :=
  if level then { s with rst := true }
  else if s.rst then resetRegisters { s with rst := false }
  else s

/-- The input the next step takes, and the inputs left. While `rst` is asserted the block accepts no
access (70_reset_and_hazards.md R270): the host's accesses wait, in their order, and only the
platform's next change of `rst` is taken (log entry 4). -/
def nextInput (rst : Bool) : List Input → Option (Input × List Input)
  | [] => none
  | .rst level :: rest => some (.rst level, rest)
  | .access a :: rest =>
    if rst then (nextInput rst rest).map fun p => (p.1, .access a :: p.2)
    else some (.access a, rest)

/-- One step: take the next input. With none to take the block stays as it is, idle
(60_exceptions.md R250) or held by `rst` (70_reset_and_hazards.md R270). -/
def takeInput (meaning : Instr → State → Host.Outcome State Fault Refusal) (s : State) :
    Host.Outcome State Fault Refusal :=
  match nextInput s.rst s.inputs with
  | none => .next s
  | some (.access a, rest) => performAccess meaning a (withInputs rest s)
  | some (.rst level, rest) => .next (driveRst level (withInputs rest s))

/-- The command word `w` (the table's `nbits` bits, the bits above them 0) as the host's very next
access, a write to CMD that the block accepts (20_memory.md R71; log entry 1). -/
def offerWord (nbits w : Nat) (s : State) : State :=
  { s with
    rst := false
    inputs := .access (memWrite (regOffset .cmd) (BitVec.ofNat 32 (w % 2 ^ nbits))) :: s.inputs }

end Sys2Proof.Machine
end

