-- ==== Sys2Proof/Machine/Step.lean ====
section
/-! DEFINITION. One step of the machine in the reference configuration (00_scope.md R8, NUMERICS =
REF64). -/

namespace Sys2Proof.Machine

/-- One step: the next host access or change of `rst` (20_memory.md R71, R81). -/
def step (s : State) : Host.Outcome State Fault Refusal := takeInput exec s

/-- `s` with the word stored where the next step takes its command: as the host's next access, a
write to CMD (10_state.md R32, R36; log entry 1). -/
def State.withFetchWord (s : State) (nbits w : Nat) : State := offerWord nbits w s

end Sys2Proof.Machine
end

