-- ==== Sys2Proof/Machine/HostNotation.lean ====
section
/-! DEFINITION. The host program notation and its pseudo-instructions (30_encoding.md R109, R110):
what a line of text is, and the accesses it stands for. -/

namespace Sys2Proof.Machine

/-- The accesses a line stands for (30_encoding.md R109, R110). -/
def expandLine : HostLine → List Access
  | .wr r v => [memWrite (regOffset r) v]
  | .rd r => [memRead (regOffset r)]
  | .command i => [memWrite (regOffset .cmd) (encode i)]
  | .tone fA fB => [memWrite (regOffset .freqA) fA, memWrite (regOffset .freqB) fB]
  | .seek n => [memWrite (regOffset .index) n]

/-- The inputs a host program gives the block, in order (30_encoding.md R109, 20_memory.md R81). -/
def expandProgram (lines : List HostLine) : List Input :=
  (lines.map expandLine).flatten.map .access

/-- The tokens of a line: words between white space, a comma being a token of its own. -/
def tokensFrom (word : List Char) : List Char → List (List Char)
  | [] => if word.isEmpty then [] else [word.reverse]
  | c :: rest =>
    if c == ' ' || c == '\t' then
      (if word.isEmpty then [] else [word.reverse]) ++ tokensFrom [] rest
    else if c == ',' then
      (if word.isEmpty then [] else [word.reverse]) ++ [[',']] ++ tokensFrom [] rest
    else tokensFrom (c :: word) rest

/-- The capital of a letter. -/
def capital (c : Char) : Char := if 'a' ≤ c && c ≤ 'z' then Char.ofNat (c.toNat - 32) else c

/-- The signs of `0x` hexadecimal numbers, each at the place of its value; the first ten are those of
decimal numbers (30_encoding.md R109). -/
def numerals : List Char :=
  ['0', '1', '2', '3', '4', '5', '6', '7', '8', '9', 'A', 'B', 'C', 'D', 'E', 'F']

/-- The number a row of signs of a base stands for; a letter counts in capitals or not (log entry 11). -/
def numberIn (base : Nat) (signs : List Char) : Option Nat :=
  signs.foldlM (fun n c => ((numerals.take base).idxOf? (capital c)).map (base * n + ·)) 0

/-- `<value>`: a decimal or `0x` hexadecimal number below 2^32 (30_encoding.md R109). -/
def parseValue (t : List Char) : Option Word := do
  let n ← match t with
    | '0' :: 'x' :: d :: ds => numberIn 16 (d :: ds)
    | d :: ds => numberIn 10 (d :: ds)
    | [] => none
  if n < 2 ^ 32 then some (BitVec.ofNat 32 n) else none

/-- The names of the registers, as the spec writes them (10_state.md R31). -/
def regNames : List (List Char × Reg) :=
  [ (['C', 'M', 'D'], .cmd)
  , (['S', 'T', 'A', 'T', 'U', 'S'], .status)
  , (['F', 'A', 'U', 'L', 'T', '_', 'C', 'M', 'D'], .faultCmd)
  , (['S', 'A', 'M', 'P', 'L', 'E', '_', 'R', 'A', 'T', 'E'], .sampleRate)
  , (['A', 'M', 'P', '_', 'S', 'C', 'A', 'L', 'E'], .ampScale)
  , (['F', 'R', 'E', 'Q', '_', 'A'], .freqA)
  , (['F', 'R', 'E', 'Q', '_', 'B'], .freqB)
  , (['I', 'N', 'D', 'E', 'X'], .index)
  , (['S', 'A', 'M', 'P', 'L', 'E', '_', 'O', 'U', 'T'], .sampleOut)
  , (['S', 'A', 'M', 'P', 'L', 'E', '_', 'C', 'O', 'U', 'N', 'T'], .sampleCount) ]

/-- `<REG>`: a register name of 10_state.md R31 (30_encoding.md R109). -/
def parseReg (t : List Char) : Option Reg := regNames.lookup t

/-- The mnemonics in capitals, each with the command it names, of the INC bit where it has one
(30_encoding.md R104, R110). -/
def mnemonicOf (capitals : List Char) (inc : Bool) : Option Instr :=
  match capitals, inc with
  | ['N', 'O', 'P'], false => some .nop
  | ['D', 'U', 'A', 'L'], inc => some (.dual inc)
  | ['S', 'I', 'N', 'G', 'L', 'E'], inc => some (.single inc)
  | ['S', 'A', 'W'], inc => some (.saw inc)
  | ['S', 'I', 'L', 'E', 'N', 'C', 'E'], inc => some (.silence inc)
  | ['S', 'R', 'S', 'T'], false => some .srst
  | _, _ => none

/-- `<MNEMONIC>[.inc]`, the mnemonic in capitals or not (30_encoding.md R109); NOP.inc and SRST.inc
do not exist (R110). -/
def parseCommand (t : List Char) : Option Instr :=
  match t.reverse with
  | 'c' :: 'n' :: 'i' :: '.' :: m => mnemonicOf (m.reverse.map capital) true
  | _ => mnemonicOf (t.map capital) false

/-- A program line of the notation; a text that is none of its forms is not a program line
(30_encoding.md R109, R110; log entry 11). -/
def parseLine (text : List Char) : Option HostLine :=
  match tokensFrom [] text with
  | [['w', 'r'], r, [','], v] => do return .wr (← parseReg r) (← parseValue v)
  | [['r', 'd'], r] => do return .rd (← parseReg r)
  | [['T', 'O', 'N', 'E'], fA, [','], fB] => do return .tone (← parseValue fA) (← parseValue fB)
  | [['S', 'E', 'E', 'K'], n] => do return .seek (← parseValue n)
  | [m] => do return .command (← parseCommand m)
  | _ => none

end Sys2Proof.Machine
end

