-- ==== Sys2Proof/Machine/RealNumerics.lean ====
section
/-! DEFINITION. The datapath and the machine under `NUMERICS = REAL`, exact real arithmetic
(00_scope.md R8, 40_oscillator.md R131, R135, 41_mixer.md R150, 42_quantizer.md R161): the ideal the
source's formula describes. Real numbers cannot be evaluated, so this is a second reading of DUAL
and SINGLE for proofs; the machine `Sys2Proof.core` runs on Sys2Proof/Machine/SampleCommands.lean
(log entry 5). -/

noncomputable section

namespace Sys2Proof

/-- The real number a finite binary64 value stands for. -/
def F64.toReal (x : F64) : ℝ := (F64.units x : ℝ) / 2 ^ 1074

/-- `sine` is the correctly rounded sine: at every finite argument no finite binary64 value is
closer to the real sine than the one it gives (40_oscillator.md R134, law 4). -/
def CorrectlyRoundedSine (sine : F64 → F64) : Prop :=
  ∀ x y : F64, F64.isFinite x → F64.isFinite y →
    F64.isFinite (sine x) ∧
    |F64.toReal (sine x) - Real.sin (F64.toReal x)| ≤ |F64.toReal y - Real.sin (F64.toReal x)|

/-- `cadence(f, r) = r / f / (2π)`, left to right (40_oscillator.md R131). -/
def cadenceReal (f r : ℝ) : ℝ := r / f / (2 * Real.pi)

/-- `phase(i, f, r) = i / cadence(f, r)` (40_oscillator.md R131). -/
def phaseReal (i f r : ℝ) : ℝ := i / cadenceReal f r

/-- `T(i, f, r) = sin(phase(i, f, r))` (40_oscillator.md R131, R135). -/
def toneReal (i : Word) (f : Freq) (r : Word) : ℝ :=
  Real.sin (phaseReal i.toNat f.toNat r.toNat)

/-- `M(a, b) = (a + b) / 2` (41_mixer.md R150). -/
def mixReal (a b : ℝ) : ℝ := (a + b) / 2

/-- `round_ha(y)`: the nearest integer, a half away from zero (42_quantizer.md R163). -/
def roundHaReal (y : ℝ) : ℤ := if 0 ≤ y then ⌊y + 1 / 2⌋ else -⌊-y + 1 / 2⌋

/-- `Q(sig, k)` with `y = sig * 128 * (k / 65536)` exact (42_quantizer.md R161). -/
def quantizeReal (sig : ℝ) (k : Word) : Byte :=
  clampSample (128 + roundHaReal (sig * 128 * ((k.toNat : ℝ) / 65536)))

namespace Machine

/-- The sample of DUAL under REAL (43_sample_commands.md R182). -/
def dualSampleReal (s : State) : Byte :=
  quantizeReal (mixReal (toneReal s.index s.freqA s.sampleRate) (toneReal s.index s.freqB s.sampleRate))
    s.ampScale

/-- The sample of SINGLE under REAL (43_sample_commands.md R183). -/
def singleSampleReal (s : State) : Byte :=
  quantizeReal (toneReal s.index s.freqA s.sampleRate) s.ampScale

/-- DUAL under REAL: the checks, the fault and the commit are those of REF64. -/
def execDualReal (inc : Bool) (s : State) : Host.Outcome State Fault Refusal :=
  .next (unlessHalted s (sampleCommand (dualCauses s) (dualSampleReal s) (encode (.dual inc)) inc s))

/-- SINGLE under REAL. -/
def execSingleReal (inc : Bool) (s : State) : Host.Outcome State Fault Refusal :=
  .next (unlessHalted s (sampleCommand (singleCauses s) (singleSampleReal s) (encode (.single inc)) inc s))

/-- The commands under REAL: only the two that use the datapath differ from `exec`. -/
def execReal (i : Instr) (s : State) : Host.Outcome State Fault Refusal :=
  match i with
  | .nop => execNop s
  | .dual inc => execDualReal inc s
  | .single inc => execSingleReal inc s
  | .saw inc => execSaw inc s
  | .silence inc => execSilence inc s
  | .srst => execSrst s

/-- One step of the machine under REAL. -/
def stepReal (s : State) : Host.Outcome State Fault Refusal := takeInput execReal s

end Machine

end Sys2Proof

end
end

