-- ==== Sys2Proof/Safety.lean ====
section
/-! DEFINITION. The terms in which claims speak of good states and of runs: the invariant of the
block, the parts it is made of, and an admitted sine. -/

namespace Sys2Proof.Machine

/-- AMP_SCALE holds a legal code, 0 to 0x00010000 (10_state.md R38). -/
def ScaleLegal (s : State) : Prop := s.ampScale ≤ Config.scaleOne

/-- The causes for which the word `w`, written to CMD, faults on the registers as they are
(60_exceptions.md R231, R238). -/
def causesOfWord (w : Word) (s : State) : List Cause :=
  match decode w with
  | .error _ => [.badCmd]
  | .ok (.dual _) => dualCauses s
  | .ok (.single _) => singleCauses s
  | .ok .nop => []
  | .ok (.saw _) => []
  | .ok (.silence _) => []
  | .ok .srst => []

/-- The fault record tells the truth (10_state.md R33, R35; 60_exceptions.md R236, R239): with no
fault recorded STATUS and FAULT_CMD are 0, and while the block is halted they are what the command
in FAULT_CMD raises on the registers as they stand. -/
def RecordTrue (s : State) : Prop :=
  if s.halted then
    s.status = recordCauses (causesOfWord s.faultCmd s) Status.clear
  else s.status = Status.clear ∧ s.faultCmd = 0#32

/-- SAMPLE_OUT is the last sample of OUT, or SAMPLE_COUNT and SAMPLE_OUT are both at their reset
values, as they are from a reset to the next sample (10_state.md R43, R44; 43_sample_commands.md
R187: a count that wraps to 0 leaves the first case true). -/
def LastSampleShown (s : State) : Prop :=
  s.out.getLast? = some s.sampleOut ∨ (s.sampleCount = 0#32 ∧ s.sampleOut = 0x80#8)

/-- The invariant of the block. -/
def BlockInv (s : State) : Prop := ScaleLegal s ∧ RecordTrue s ∧ LastSampleShown s

/-- The registers DUAL needs are set, and the block is not halted (70_reset_and_hazards.md R274). -/
abbrev DualReady (s : State) : Prop :=
  s.halted = false ∧ s.sampleRate ≠ 0#32 ∧ s.freqA ≠ 0#16 ∧ s.freqB ≠ 0#16

/-- The registers SINGLE needs are set, and the block is not halted (70_reset_and_hazards.md R274). -/
abbrev SingleReady (s : State) : Prop :=
  s.halted = false ∧ s.sampleRate ≠ 0#32 ∧ s.freqA ≠ 0#16

/-- A function the spec admits as `SIN64`: `SIN64(+0) = +0`, and a finite argument's value lies in
[-1, 1] (40_oscillator.md R134, laws 1 and 2; law 3 is that it is a function). -/
def AdmittedSine (sine : F64 → F64) : Prop :=
  sine 0#64 = 0#64 ∧ ∀ x, F64.isFinite x → F64.inUnit (sine x)

end Sys2Proof.Machine

/-- Twice the midpoint of the largest finite binary64 value and 2^1024, in units of 2^-1074: what lies
below the midpoint rounds to a finite value (IEEE 754, log entry 7). -/
@[irreducible] def Sys2Proof.F64.twiceOverflow : Nat := magUnits (infMag - 1) + magUnits infMag

/-- `x` is the binary64 value nearest the exact value of `n / d` units of 2^-1074, and of two equally
near the one with the even significand (00_scope.md R11). -/
def Sys2Proof.F64.NearestEven (x : F64) (n : Int) (d : Nat) : Prop :=
  isFinite x = true ∧ ∀ y : F64, isFinite y = true →
    |units x * d - n| ≤ |units y * d - n| ∧
    (units y ≠ units x → |units x * d - n| = |units y * d - n| → mag x % 2 = 0)
end

