-- ==== Sys2Proof/Certificates/Slice0/Obligations.lean ====
section
/-! DEFINITION. The statements for the provers. "Model's choice" in a docstring names the log entry a
clause rests on. Numbers of 2^-1074 units stand for exact binary64 values (`F64.units`). -/

open Sys2Proof Sys2Proof.Machine

/-! ## Encoding -/

/-- 30_encoding.md R105: exactly these ten words are commands. -/
def Obligations.ExactlyTenWordsAreCommands : Prop :=
  ∀ w : Word, (∃ i, decode w = .ok i) ↔
    w ∈ [0x00000000#32, 0x00000001#32, 0x00000011#32, 0x00000002#32, 0x00000012#32, 0x00000003#32,
      0x00000013#32, 0x00000004#32, 0x00000014#32, 0x0000000F#32]

/-- 30_encoding.md R100, R104, R105: decoding and encoding are inverse to each other, over every
word and every command. -/
def Obligations.DecodeAndEncodeAgree : Prop :=
  ∀ (w : Word) (i : Instr), decode w = .ok i ↔ encode i = w

/-- 30_encoding.md R104, R105: words written out from the opcode map decode to their commands. -/
def Obligations.OpcodeMapWordsDecode : Prop :=
  decode 0b00000000000000000000000000000000#32 = .ok .nop ∧
  decode 0b00000000000000000000000000010001#32 = .ok (.dual true) ∧
  decode 0b00000000000000000000000000000010#32 = .ok (.single false) ∧
  decode 0b00000000000000000000000000010011#32 = .ok (.saw true) ∧
  decode 0b00000000000000000000000000000100#32 = .ok (.silence false) ∧
  decode 0b00000000000000000000000000001111#32 = .ok .srst

/-- 30_encoding.md R105, R106: every illegal word is rejected for the reason that holds, RSVD first,
then OP, then INC; the names of the reasons are the model's. -/
def Obligations.IllegalWordsRejectedByReason : Prop :=
  ∀ w : Word,
    (decode w = .error .reservedBits ↔ 32 ≤ w.toNat) ∧
    (decode w = .error .reservedOp ↔ w.toNat < 32 ∧ 5 ≤ w.toNat % 16 ∧ w.toNat % 16 ≤ 14) ∧
    (decode w = .error .incNotAllowed ↔ w = 0x00000010#32 ∨ w = 0x0000001F#32) ∧
    decode w ≠ .error .notOneWord

/-- 20_memory.md R73: bits [7:0] are the byte at the lowest address, bits [31:24] the byte at the
highest, and only four lanes make a word. -/
def Obligations.WordLanesAreLittleEndian : Prop :=
  ∀ (lanes : List Byte) (w : Word), wordOfLanes lanes = some w ↔
    lanes = [w.extractLsb' 0 8, w.extractLsb' 8 8, w.extractLsb' 16 8, w.extractLsb' 24 8]

/-! ## The step -/

/-- 10_state.md R32, 20_memory.md R71, R76: a step that takes a write of a command word to CMD is that
command's meaning, on the state that has taken the access. -/
def Obligations.StepRunsDecodedCommand : Prop :=
  ∀ (s : State) (w : Word) (i : Instr) (rest : List Input),
    s.rst = false → s.inputs = .access (memWrite 0x00#6 w) :: rest → decode w = .ok i →
    step s = exec i { s with inputs := rest }

/-- Model's choice (log entry 1): a command word offered by `withFetchWord` is what the very next step
runs, and the inputs that waited go on waiting. -/
def Obligations.OfferedWordRunsNext : Prop :=
  ∀ (s : State) (i : Instr),
    step (s.withFetchWord 32 (encode i).toNat) = exec i { s with rst := false }

/-- 60_exceptions.md R250, 70_reset_and_hazards.md R270 (93_implementation_defined.md I20): with
nothing offered, and with `rst` asserted and only host accesses waiting, the block stays in its
state. The waiting of the accesses is the model's choice (log entry 4). -/
def Obligations.IdleOrHeldBlockStays : Prop :=
  ∀ s : State,
    (s.inputs = [] → step s = .next s) ∧
    (s.rst = true → (∀ x ∈ s.inputs, ∃ a, x = .access a) → step s = .next s)

/-- 70_reset_and_hazards.md R270, R271, R272: while `rst` is asserted no access is accepted, and its
release resets every register and keeps OUT. Model's reading: that the waiting accesses are held ahead
of the release (log entry 4, DESIGN CHOICE), that asserting `rst` changes no register and no port (log
entry 14, DEDUCED), and that the model's own fields are kept (log entry 18, DEDUCED). -/
def Obligations.RstReleaseResets : Prop :=
  ∀ (s : State) (waiting : List Access) (rest : List Input),
    (s.rst = true → s.inputs = waiting.map .access ++ .rst false :: rest →
      step s = .next { State.reset with
        out := s.out, inputs := waiting.map .access ++ rest, reads := s.reads, sineRom := s.sineRom }) ∧
    (s.rst = false → s.inputs = .rst true :: rest →
      step s = .next { s with inputs := rest, rst := true })

/-- 20_memory.md R76: the value each register keeps of a write, on a block that is not halted, and
that a write to CMD executes the command; nothing else changes. -/
def Obligations.RegisterWritesKeepLegalValue : Prop :=
  ∀ (s : State) (v : Word) (rest : List Input), s.rst = false → s.halted = false →
    (s.inputs = .access (memWrite 0x0C#6 v) :: rest →
      step s = .next { s with inputs := rest, sampleRate := v }) ∧
    (s.inputs = .access (memWrite 0x10#6 v) :: rest →
      step s = .next { s with inputs := rest, ampScale := BitVec.ofNat 32 (min v.toNat 0x10000) }) ∧
    (s.inputs = .access (memWrite 0x14#6 v) :: rest →
      step s = .next { s with inputs := rest, freqA := v.extractLsb' 0 16 }) ∧
    (s.inputs = .access (memWrite 0x18#6 v) :: rest →
      step s = .next { s with inputs := rest, freqB := v.extractLsb' 0 16 }) ∧
    (s.inputs = .access (memWrite 0x1C#6 v) :: rest →
      step s = .next { s with inputs := rest, index := v }) ∧
    (s.inputs = .access (memWrite 0x00#6 v) :: rest →
      (∀ i, encode i = v → step s = exec i { s with inputs := rest }) ∧
      ((∀ i, encode i ≠ v) →
        step s = .next (raiseFault [.badCmd] v { s with inputs := rest })))

/-- 20_memory.md R74, R75: unmapped offsets and CMD read 0, and writes to unmapped offsets and to
read-only registers have no effect; none of them faults. -/
def Obligations.UnmappedAndReadOnlyOffsets : Prop :=
  ∀ (s : State) (a : Offset) (v : Word) (rest : List Input), s.rst = false →
    (a ∈ [0x28#6, 0x2C#6, 0x30#6, 0x34#6, 0x38#6, 0x3C#6, 0x00#6] →
      s.inputs = .access (memRead a) :: rest →
      step s = .next { s with inputs := rest, reads := s.reads ++ [0x00000000#32] }) ∧
    (a ∈ [0x28#6, 0x2C#6, 0x30#6, 0x34#6, 0x38#6, 0x3C#6, 0x04#6, 0x08#6, 0x20#6, 0x24#6] →
      s.inputs = .access (memWrite a v) :: rest →
      step s = .next { s with inputs := rest })

/-- 20_memory.md R78 with the map of 10_state.md R31: a read returns the register's value, absent bits
0, and changes nothing in the block. That the word goes to `reads` is log entry 2. -/
def Obligations.ReadsReturnRegisters : Prop :=
  ∀ (s : State) (rest : List Input), s.rst = false →
    ∀ p ∈ [(0x04#6, statusWord s.status), (0x08#6, s.faultCmd), (0x0C#6, s.sampleRate),
        (0x10#6, s.ampScale), (0x14#6, 0#16 ++ s.freqA), (0x18#6, 0#16 ++ s.freqB),
        (0x1C#6, s.index), (0x20#6, 0#24 ++ s.sampleOut), (0x24#6, s.sampleCount)],
      s.inputs = .access (memRead p.1) :: rest →
      step s = .next { s with inputs := rest, reads := s.reads ++ [p.2] }

/-- 20_memory.md R72: an access that is not 32 bits wide, or at an offset that is no multiple of 4, is
refused. -/
def Obligations.AccessOutsideInterfaceRefused : Prop :=
  ∀ (s : State) (a : Offset) (n : Nat) (lanes : List Byte) (rest : List Input), s.rst = false →
    (s.inputs = .access (.read a n) :: rest → n ≠ 4 ∨ a.toNat % 4 ≠ 0 →
      ∃ r, step s = .refused r) ∧
    (s.inputs = .access (.write a lanes) :: rest → lanes.length ≠ 4 ∨ a.toNat % 4 ≠ 0 →
      ∃ r, step s = .refused r)

/-- 60_exceptions.md R251 with 20_memory.md R71: every access in the interface completes as one
transaction, and none but a write to CMD changes STATUS or FAULT_CMD. -/
def Obligations.AccessesCompleteWithoutFault : Prop :=
  ∀ (s : State) (a : Access) (rest : List Input), s.rst = false → s.inputs = .access a :: rest →
    a.wellFormed = true →
    ∃ t, step s = .next t ∧ t.inputs = rest ∧
      ((∀ w, a ≠ memWrite 0x00#6 w) → t.status = s.status ∧ t.faultCmd = s.faultCmd)

/-! ## Reset and STATUS -/

/-- 70_reset_and_hazards.md R271, R273: what every register reads as in the first state, OUT empty and
both ports at their reset levels. -/
def Obligations.ResetStateAsTheSpecSays : Prop :=
  readOffset 0x00#6 State.reset = 0x00000000#32 ∧ readOffset 0x04#6 State.reset = 0x00000000#32 ∧
  readOffset 0x08#6 State.reset = 0x00000000#32 ∧ readOffset 0x0C#6 State.reset = 0x00000000#32 ∧
  readOffset 0x10#6 State.reset = 0x00000000#32 ∧ readOffset 0x14#6 State.reset = 0x00000000#32 ∧
  readOffset 0x18#6 State.reset = 0x00000000#32 ∧ readOffset 0x1C#6 State.reset = 0x00000000#32 ∧
  readOffset 0x20#6 State.reset = 0x00000080#32 ∧ readOffset 0x24#6 State.reset = 0x00000000#32 ∧
  State.reset.out = [] ∧ State.reset.sampleOutPort = 0x80#8 ∧ State.reset.faultPort = false

/-- 10_state.md R33, R34, R46: where the fields of STATUS lie, that HALTED is the OR of bits [4:1],
that the reserved bits are 0 and that the `fault` port is HALTED. -/
def Obligations.StatusLayoutAndHalted : Prop :=
  ∀ s : State,
    (statusWord s.status).toNat = (if s.halted then 1 else 0) +
      2 * s.status.badCmd.toNat + 4 * s.status.zeroRate.toNat + 8 * s.status.pair.toNat +
      16 * s.status.zeroFreq.toNat + 256 * s.status.faultCode.toNat ∧
    s.halted = ((statusWord s.status).getLsbD 1 || (statusWord s.status).getLsbD 2 ||
      (statusWord s.status).getLsbD 3 || (statusWord s.status).getLsbD 4) ∧
    s.faultPort = (statusWord s.status).getLsbD 0

/-! ## The commands -/

/-- 44_control_commands.md R210: NOP completes in every state and changes nothing. -/
def Obligations.NopChangesNothing : Prop :=
  encode .nop = 0x00000000#32 ∧ ∀ s : State, exec .nop s = .next s

/-- 44_control_commands.md R211, 70_reset_and_hazards.md R271, R272: SRST completes in every state,
halted or not: every register takes its reset value, `sample_out` carries 0x80 and `fault` is low;
OUT, `rst` and the model's own fields stay. -/
def Obligations.SrstResetsRegistersKeepsOut : Prop :=
  encode .srst = 0x0000000F#32 ∧
  ∀ s : State,
    let t := { State.reset with
      out := s.out, rst := s.rst, inputs := s.inputs, reads := s.reads, sineRom := s.sineRom }
    exec .srst s = .next t ∧ t.sampleOutPort = 0x80#8 ∧ t.faultPort = false

/-- 43_sample_commands.md R184, R181: SAW completes on every block that is not halted, whatever the
configuration; the whole next state, so also its frame. -/
def Obligations.SawEmitsIndexModulo256 : Prop :=
  encode (.saw false) = 0x00000003#32 ∧ encode (.saw true) = 0x00000013#32 ∧
  ∀ (s : State) (inc : Bool), s.halted = false →
    exec (.saw inc) s = .next { s with
      sampleOut := BitVec.ofNat 8 (s.index.toNat % 256)
      out := s.out ++ [BitVec.ofNat 8 (s.index.toNat % 256)]
      sampleCount := BitVec.ofNat 32 ((s.sampleCount.toNat + 1) % 2 ^ 32)
      index := if inc then BitVec.ofNat 32 ((s.index.toNat + 1) % 2 ^ 32) else s.index }

/-- 43_sample_commands.md R185, R181: SILENCE completes on every block that is not halted; the whole
next state. -/
def Obligations.SilenceEmits128 : Prop :=
  encode (.silence false) = 0x00000004#32 ∧ encode (.silence true) = 0x00000014#32 ∧
  ∀ (s : State) (inc : Bool), s.halted = false →
    exec (.silence inc) s = .next { s with
      sampleOut := 128#8
      out := s.out ++ [128#8]
      sampleCount := BitVec.ofNat 32 ((s.sampleCount.toNat + 1) % 2 ^ 32)
      index := if inc then BitVec.ofNat 32 ((s.index.toNat + 1) % 2 ^ 32) else s.index }

/-- 43_sample_commands.md R180, R181, R182: DUAL completes where no check of it fails; the whole next
state, whatever sine the block has. -/
def Obligations.DualEmitsQuantizedMix : Prop :=
  ∀ (s : State) (inc : Bool), DualReady s →
    let a := tone 0x400921FB54442D18#64 (sin64 s.sineRom) s.index s.freqA s.sampleRate
    let b := tone 0x400921FB54442D18#64 (sin64 s.sineRom) s.index s.freqB s.sampleRate
    exec (.dual inc) s = .next { s with
      sampleOut := quantize (mix a b) s.ampScale
      out := s.out ++ [quantize (mix a b) s.ampScale]
      sampleCount := BitVec.ofNat 32 ((s.sampleCount.toNat + 1) % 2 ^ 32)
      index := if inc then BitVec.ofNat 32 ((s.index.toNat + 1) % 2 ^ 32) else s.index }

/-- 43_sample_commands.md R180, R181, R183: SINGLE completes where no check of it fails, whatever
FREQ_B holds; the whole next state. -/
def Obligations.SingleEmitsQuantizedTone : Prop :=
  ∀ (s : State) (inc : Bool), SingleReady s →
    let a := tone 0x400921FB54442D18#64 (sin64 s.sineRom) s.index s.freqA s.sampleRate
    exec (.single inc) s = .next { s with
      sampleOut := quantize a s.ampScale
      out := s.out ++ [quantize a s.ampScale]
      sampleCount := BitVec.ofNat 32 ((s.sampleCount.toNat + 1) % 2 ^ 32)
      index := if inc then BitVec.ofNat 32 ((s.index.toNat + 1) % 2 ^ 32) else s.index }

/-- 43_sample_commands.md R182, R183 (the worked examples): with the reference sine, DUAL at 697 Hz and
1209 Hz emits 213 at INDEX 1, and SINGLE at a quarter of the rate emits 0 at INDEX 3. -/
def Obligations.WorkedExamplesOfTheCommands : Prop :=
  let s : State := { State.reset with sampleRate := 8000#32, ampScale := 0x10000#32 }
  (∃ t, exec (.dual true) { s with freqA := 697#16, freqB := 1209#16, index := 1#32 } = .next t ∧
    t.sampleOut = 213#8 ∧ t.out = [213#8] ∧ t.index = 2#32 ∧ t.sampleCount = 1#32) ∧
  (∃ t, exec (.single false) { s with freqA := 2000#16, index := 3#32 } = .next t ∧
    t.sampleOut = 0#8 ∧ t.out = [0#8] ∧ t.index = 3#32)

/-! ## Faults and the halted state -/

/-- 60_exceptions.md R236: fault entry on a block that is not halted sets the bit of every cause and no
other, FAULT_CODE to the lowest code, FAULT_CMD to the word, halts the block, and changes no other
field. -/
def Obligations.FaultEntryRecordsCauses : Prop :=
  ∀ (codes : List Cause) (w : Word) (s : State), codes ≠ [] → s.halted = false →
    ∃ t, raiseFault codes w s = { s with status := t, faultCmd := w } ∧
      (t.badCmd = true ↔ Cause.badCmd ∈ codes) ∧ (t.zeroRate = true ↔ Cause.zeroRate ∈ codes) ∧
      (t.pair = true ↔ Cause.pair ∈ codes) ∧ (t.zeroFreq = true ↔ Cause.zeroFreq ∈ codes) ∧
      (∃ c ∈ codes, t.faultCode = causeCode c) ∧ (∀ c ∈ codes, t.faultCode ≤ causeCode c) ∧
      (raiseFault codes w s).halted = true

/-- 60_exceptions.md R238: every cause of one command is recorded at once, with STATUS as the table of
the rule gives it; an illegal word records BAD_CMD alone. Nothing else changes (R237). -/
def Obligations.SimultaneousCausesRecorded : Prop :=
  ∀ (s : State) (inc : Bool), s.halted = false →
    (s.sampleRate = 0#32 ∨ s.freqA = 0#16 ∨ s.freqB = 0#16 →
      ∃ t, exec (.dual inc) s = .next { s with status := t, faultCmd := encode (.dual inc) } ∧
        statusWord t =
          if s.sampleRate = 0#32 then
            if s.freqA = 0#16 ∧ s.freqB = 0#16 then 0x00000215#32
            else if s.freqA = 0#16 ∨ s.freqB = 0#16 then 0x0000021D#32 else 0x00000205#32
          else if s.freqA = 0#16 ∧ s.freqB = 0#16 then 0x00000411#32 else 0x00000319#32) ∧
    (s.sampleRate = 0#32 ∨ s.freqA = 0#16 →
      ∃ t, exec (.single inc) s = .next { s with status := t, faultCmd := encode (.single inc) } ∧
        statusWord t =
          if s.sampleRate = 0#32 then
            if s.freqA = 0#16 then 0x00000215#32 else 0x00000205#32
          else 0x00000411#32) ∧
    (∀ (w : Word) (rest : List Input), s.rst = false →
      s.inputs = .access (memWrite 0x00#6 w) :: rest → (∀ i, encode i ≠ w) →
      ∃ t, step s = .next { s with inputs := rest, status := t, faultCmd := w } ∧
        statusWord t = 0x00000103#32)

/-- 60_exceptions.md R237: in a step that halts the block nothing but the fault record changes (the
input is taken). -/
def Obligations.FaultsArePrecise : Prop :=
  ∀ s t : State, step s = .next t → s.halted = false → t.halted = true →
    t = { s with status := t.status, faultCmd := t.faultCmd, inputs := t.inputs }

/-- 20_memory.md R77: while the block is halted every write but that of the SRST word to CMD has no
effect, that one resets the block, and reads are unaffected. -/
def Obligations.HaltedIgnoresWrites : Prop :=
  ∀ (s : State) (a : Offset) (v : Word) (rest : List Input),
    s.halted = true → s.rst = false → a.toNat % 4 = 0 →
    (s.inputs = .access (memWrite a v) :: rest → ¬(a = 0x00#6 ∧ v = 0x0000000F#32) →
      step s = .next { s with inputs := rest }) ∧
    (s.inputs = .access (memWrite 0x00#6 0x0000000F#32) :: rest →
      step s = .next { State.reset with
        out := s.out, inputs := rest, reads := s.reads, sineRom := s.sineRom }) ∧
    (s.inputs = .access (memRead a) :: rest →
      step s = .next { s with inputs := rest, reads := s.reads ++ [readOffset a s] })

/-- 60_exceptions.md R240, 10_state.md R33 (sticky): a halted block stays halted with every register,
OUT and the fault record as they are, until the SRST word or the release of `rst` resets it. -/
def Obligations.HaltEndsOnlyByReset : Prop :=
  ∀ s t : State, step s = .next t → s.halted = true →
    t = { s with inputs := t.inputs, reads := t.reads, rst := t.rst } ∨
    (t = { State.reset with
        out := s.out, inputs := t.inputs, reads := s.reads, sineRom := s.sineRom } ∧
      ((s.rst = true ∧ Input.rst false ∈ s.inputs) ∨
        (s.rst = false ∧
          s.inputs = .access (memWrite 0x00#6 0x0000000F#32) :: t.inputs)))

/-! ## Whole-machine rules -/

/-- 20_memory.md R81, 43_sample_commands.md R180, 60_exceptions.md R237, 44_control_commands.md R210,
R211: every command answers a next state, which is the old one (only of NOP or of a halted block), a
commit (only of a sample command), a fault record (only of DUAL or SINGLE) or a reset (only of SRST),
and nothing in between. -/
def Obligations.CommandsDoOneOfFourThings : Prop :=
  ∀ (i : Instr) (s : State), ∃ t, exec i s = .next t ∧
    ((t = s ∧ (s.halted = true ∨ i = .nop)) ∨
     (s.halted = false ∧ (∃ inc, i = .dual inc ∨ i = .single inc ∨ i = .saw inc ∨ i = .silence inc) ∧
        ∃ sample, t = { s with
          sampleOut := sample
          out := s.out ++ [sample]
          sampleCount := s.sampleCount + 1#32
          index := if incField i then s.index + 1#32 else s.index }) ∨
     (s.halted = false ∧ t.halted = true ∧ (∃ inc, i = .dual inc ∨ i = .single inc) ∧
        t = { s with status := t.status, faultCmd := encode i }) ∨
     (i = .srst ∧ t = { State.reset with
        out := s.out, rst := s.rst, inputs := s.inputs, reads := s.reads, sineRom := s.sineRom }))

/-- 10_state.md R43, R44, R45: a step appends at most one sample to OUT and removes none; SAMPLE_OUT
and SAMPLE_COUNT follow the appended sample, and change otherwise only by reset. -/
def Obligations.OutputStreamAppendOnly : Prop :=
  ∀ s t : State, step s = .next t →
    (∃ sample, t.out = s.out ++ [sample] ∧ t.sampleOut = sample ∧
      t.sampleCount = s.sampleCount + 1#32) ∨
    (t.out = s.out ∧ t.sampleOut = s.sampleOut ∧ t.sampleCount = s.sampleCount) ∨
    (t.out = s.out ∧ t.sampleOut = 0x80#8 ∧ t.sampleCount = 0#32 ∧ t.status = Status.clear ∧
      t.index = 0#32)

/-- 10_state.md R41: INDEX changes only by a sample command with INC (by one, modulo 2^32, with its
sample emitted), by a write to INDEX, or by reset. -/
def Obligations.IndexChangesOnlyAsStated : Prop :=
  ∀ s t : State, step s = .next t → t.index ≠ s.index →
    (∃ i rest, s.inputs = .access (memWrite 0x00#6 (encode i)) :: rest ∧ incField i = true ∧
      t.index = BitVec.ofNat 32 ((s.index.toNat + 1) % 2 ^ 32) ∧
      t.out = s.out ++ [t.sampleOut]) ∨
    (∃ v rest, s.inputs = .access (memWrite 0x1C#6 v) :: rest ∧ t.index = v) ∨
    (t.index = 0#32 ∧ t.status = Status.clear ∧
      (s.rst = true ∨ ∃ rest, s.inputs = .access (memWrite 0x00#6 0x0000000F#32) :: rest))

/-- 70_reset_and_hazards.md R273: the invariant holds in the first state (OUT is empty there, and
SAMPLE_COUNT and SAMPLE_OUT are at their reset values). -/
def Obligations.InvariantHoldsAtReset : Prop := BlockInv State.reset

/-- 10_state.md R33, R35, R38, R43; 60_exceptions.md R236, R239: every step keeps the invariant: AMP_SCALE
is a legal code; STATUS and FAULT_CMD are 0 or are what the command in FAULT_CMD raises on the
registers as they stand; SAMPLE_OUT is the last sample of OUT, or SAMPLE_COUNT is 0 and SAMPLE_OUT its
reset value 128, as after a reset. -/
def Obligations.EveryStepKeepsInvariant : Prop :=
  ∀ s t : State, BlockInv s → step s = .next t → BlockInv t

/-- 10_state.md R50, 20_memory.md R85: no step changes the block's sine. -/
def Obligations.SineNeverChanges : Prop :=
  ∀ s t : State, step s = .next t → t.sineRom = s.sineRom

/-- 40_oscillator.md R132, 43_sample_commands.md R183, R184: a sample depends on its operands alone
(and on the block's fixed sine), not on what came before; SINGLE does not depend on FREQ_B, SAW on
INDEX alone. -/
def Obligations.SamplesDependOnOperandsOnly : Prop :=
  ∀ (s u s' u' : State) (inc inc' : Bool), s.sineRom = u.sineRom → s.index = u.index →
    ((DualReady s ∧ DualReady u ∧ s.sampleRate = u.sampleRate ∧ s.freqA = u.freqA ∧
        s.freqB = u.freqB ∧ s.ampScale = u.ampScale ∧
        exec (.dual inc) s = .next s' ∧ exec (.dual inc') u = .next u') ∨
      (SingleReady s ∧ SingleReady u ∧ s.sampleRate = u.sampleRate ∧ s.freqA = u.freqA ∧
        s.ampScale = u.ampScale ∧
        exec (.single inc) s = .next s' ∧ exec (.single inc') u = .next u') ∨
      (s.halted = false ∧ u.halted = false ∧
        exec (.saw inc) s = .next s' ∧ exec (.saw inc') u = .next u')) →
    s'.sampleOut = u'.sampleOut

/-! ## Binary64 -/

/-- 00_scope.md R11: `fl` gives the nearest binary64 value, ties to even: no finite magnitude is nearer
to `n / d` units than the one `roundMag` gives, and one that is as near leaves it with an even
significand. -/
def Obligations.RoundingIsNearestEven : Prop :=
  ∀ n d m : Nat, 0 < d → m < F64.infMag → F64.roundMag n d < F64.infMag →
    |(F64.magUnits (F64.roundMag n d) * d : Int) - n| ≤ |(F64.magUnits m * d : Int) - n| ∧
    (m ≠ F64.roundMag n d →
      |(F64.magUnits (F64.roundMag n d) * d : Int) - n| = |(F64.magUnits m * d : Int) - n| →
      F64.roundMag n d % 2 = 0)

/-- 00_scope.md R11, 40_oscillator.md R133, 41_mixer.md R150: of finite operands `F64.add`, `F64.mul` and
`F64.div` give the binary64 value nearest the exact sum, product and quotient, ties to even, wherever
the exact value lies below the midpoint of the largest finite value and 2^1024. -/
def Obligations.OperationsRoundTheExactResult : Prop :=
  ∀ a b : F64, F64.isFinite a = true → F64.isFinite b = true →
    let x := F64.units a
    let y := F64.units b
    (2 * |x + y| < F64.twiceOverflow → F64.NearestEven (F64.add a b) (x + y) 1) ∧
    (2 * |x * y| < F64.twiceOverflow * F64.unitsPerOne →
      F64.NearestEven (F64.mul a b) (x * y) F64.unitsPerOne) ∧
    (y ≠ 0 → 2 * |x| * F64.unitsPerOne < F64.twiceOverflow * |y| →
      F64.NearestEven (F64.div a b) (y.sign * x * F64.unitsPerOne) y.natAbs)

/-- 00_scope.md R11: the conversion of an integer below 2^53 to binary64 is exact. -/
def Obligations.IntegerConversionExact : Prop :=
  ∀ n : Nat, n < 2 ^ 53 → F64.units (F64.ofNat n) = (n * F64.unitsPerOne : Nat)

/-! ## The oscillator -/

/-- 40_oscillator.md R134, laws 1 to 3: every sine a State can hold is admitted. -/
def Obligations.EverySineIsAdmitted : Prop :=
  ∀ rom : SineRom, AdmittedSine (sin64 rom)

/-- 40_oscillator.md R134; model's choice (log entry 3): on any finitely many finite arguments, every
admitted sine is one that a State can hold. -/
def Obligations.EveryAdmittedSineIsCovered : Prop :=
  ∀ sine : F64 → F64, AdmittedSine sine → ∀ xs : List F64, (∀ x ∈ xs, F64.isFinite x) →
    ∃ rom : SineRom, ∀ x ∈ xs, sin64 rom x = sine x

/-- 40_oscillator.md R133: with `r >= 1` and `f >= 1` no step of the phase overflows, underflows to zero
or is a NaN: `cad > 2.4e-6` and `0 <= ph < 1.8e15`, and `ph > 0` at every INDEX but 0. -/
def Obligations.PhaseStaysInRange : Prop :=
  ∀ (i : Word) (f : Freq) (r : Word), f ≠ 0#16 → r ≠ 0#32 →
    F64.isFinite (cadence 0x400921FB54442D18#64 f r) = true ∧
    24 * (F64.unitsPerOne : Int) < 10 ^ 7 * F64.units (cadence 0x400921FB54442D18#64 f r) ∧
    F64.isFinite (phase 0x400921FB54442D18#64 i f r) = true ∧
    0 ≤ F64.units (phase 0x400921FB54442D18#64 i f r) ∧
    (i ≠ 0#32 → 0 < F64.units (phase 0x400921FB54442D18#64 i f r)) ∧
    F64.units (phase 0x400921FB54442D18#64 i f r) < 18 * 10 ^ 14 * (F64.unitsPerOne : Int)

/-- 40_oscillator.md R137: the tone lies in [-1, 1], under REF64 for every admitted sine, and under
REAL. -/
def Obligations.ToneStaysInUnitRange : Prop :=
  (∀ (sine : F64 → F64) (i : Word) (f : Freq) (r : Word), AdmittedSine sine → f ≠ 0#16 → r ≠ 0#32 →
    F64.inUnit (tone 0x400921FB54442D18#64 sine i f r) = true) ∧
  (∀ (i : Word) (f : Freq) (r : Word), -1 ≤ toneReal i f r ∧ toneReal i f r ≤ 1)

/-- 40_oscillator.md R138: at INDEX 0 the tone is +0 under REF64 for every admitted sine, and 0 under
REAL, for every frequency and rate. -/
def Obligations.ToneStartsAtZero : Prop :=
  ∀ (sine : F64 → F64) (f : Freq) (r : Word), AdmittedSine sine → f ≠ 0#16 → r ≠ 0#32 →
    tone 0x400921FB54442D18#64 sine 0#32 f r = 0#64 ∧ toneReal 0#32 f r = 0

/-- 40_oscillator.md R140: with `f = r/4` the phases at INDEX 1 to 4 are the four stated values, for
every such rate, and the reference sine has the four stated values there. -/
def Obligations.QuarterPhaseValues : Prop :=
  ∀ (f : Freq) (r : Word), f ≠ 0#16 → r.toNat = 4 * f.toNat →
    phase 0x400921FB54442D18#64 1#32 f r = 0x3FF921FB54442D18#64 ∧
    phase 0x400921FB54442D18#64 2#32 f r = 0x400921FB54442D18#64 ∧
    phase 0x400921FB54442D18#64 3#32 f r = 0x4012D97C7F3321D2#64 ∧
    phase 0x400921FB54442D18#64 4#32 f r = 0x401921FB54442D18#64 ∧
    tone 0x400921FB54442D18#64 sinReference 1#32 f r = 0x3FF0000000000000#64 ∧
    tone 0x400921FB54442D18#64 sinReference 2#32 f r = 0x3CA1A62633145C07#64 ∧
    tone 0x400921FB54442D18#64 sinReference 3#32 f r = 0xBFF0000000000000#64 ∧
    tone 0x400921FB54442D18#64 sinReference 4#32 f r = 0xBCB1A62633145C07#64

/-! ## The mixer -/

/-- 41_mixer.md R152: mixing is commutative and `M(a, a) = a`, on [-1, 1] under REF64 and under REAL. -/
def Obligations.MixCommutesAndKeepsEqualTones : Prop :=
  (∀ a b : F64, mix a b = mix b a) ∧ (∀ a : F64, F64.inUnit a = true → mix a a = a) ∧
  (∀ a b : ℝ, mixReal a b = mixReal b a) ∧ (∀ a : ℝ, mixReal a a = a)

/-- 41_mixer.md R151: the mix of two values in [-1, 1] is in [-1, 1], under REF64 and under REAL. -/
def Obligations.MixStaysInUnitRange : Prop :=
  (∀ a b : F64, F64.inUnit a = true → F64.inUnit b = true → F64.inUnit (mix a b) = true) ∧
  (∀ a b : ℝ, -1 ≤ a → a ≤ 1 → -1 ≤ b → b ≤ 1 → -1 ≤ mixReal a b ∧ mixReal a b ≤ 1)

/-- 41_mixer.md R154: opposite tones mix to +0, and the peaks mix to themselves, exactly. -/
def Obligations.OppositeTonesCancel : Prop :=
  (∀ a : F64, F64.isFinite a = true → mix a (a ^^^ 0x8000000000000000#64) = 0#64) ∧
  mix 0x3FF0000000000000#64 0x3FF0000000000000#64 = 0x3FF0000000000000#64 ∧
  mix 0xBFF0000000000000#64 0xBFF0000000000000#64 = 0xBFF0000000000000#64

/-- 43_sample_commands.md R182 (corner cases), 41_mixer.md R152: swapping the frequencies changes no
sample, and with equal frequencies DUAL does exactly what SINGLE does, whatever sine the block
has. -/
def Obligations.DualSymmetryAndSingle : Prop :=
  ∀ (s : State) (inc : Bool), DualReady s →
    (∃ t, exec (.dual inc) s = .next t ∧
      exec (.dual inc) { s with freqA := s.freqB, freqB := s.freqA } =
        .next { t with freqA := s.freqB, freqB := s.freqA }) ∧
    (s.freqA = s.freqB → exec (.dual inc) s = exec (.single inc) s)

/-- 43_sample_commands.md R182 (corner cases), 40_oscillator.md R138, 42_quantizer.md R165: at INDEX 0,
and with AMP_SCALE 0 at any INDEX, DUAL and SINGLE emit 128, whatever sine the block has. -/
def Obligations.ZeroPhaseOrScaleEmitsSilence : Prop :=
  ∀ (s : State) (inc : Bool), s.index = 0#32 ∨ s.ampScale = 0#32 →
    (DualReady s → ∃ t, exec (.dual inc) s = .next t ∧ t.sampleOut = 128#8 ∧
      t.out = s.out ++ [128#8]) ∧
    (SingleReady s → ∃ t, exec (.single inc) s = .next t ∧ t.sampleOut = 128#8 ∧
      t.out = s.out ++ [128#8])

/-! ## The quantizer -/

/-- 42_quantizer.md R162: for a signal in [-1, 1] and a legal scale `y1 = fl(sig * 128.0)` and
`sc = fl(toF(k) / 65536.0)` are exact, and `y` is the exact `sig * 128 * (k / 65536)`, that is
`sig * k / 512`, rounded once. -/
def Obligations.ScaledSignalRoundsOnce : Prop :=
  ∀ (sig : F64) (k : Word), F64.inUnit sig = true → k ≤ 0x10000#32 →
    F64.units (F64.mul sig (F64.ofNat 128)) = 128 * F64.units sig ∧
    65536 * F64.units (F64.div (F64.ofNat k.toNat) (F64.ofNat 65536)) = k.toNat * F64.unitsPerOne ∧
    F64.NearestEven (scaledSignal sig k) (F64.units sig * k.toNat) 512

/-- 42_quantizer.md R163: `round_ha` gives the nearest integer, and of two equally near the one
farther from zero, on exact fractions and on reals. -/
def Obligations.RoundHalfAwayFromZero : Prop :=
  (∀ (n : Int) (d : Nat), 0 < d →
    2 * |n - d * roundHa n d| ≤ d ∧
    (2 * |n - d * roundHa n d| = d → |n| < d * |roundHa n d|)) ∧
  (∀ y : ℝ, 2 * |y - roundHaReal y| ≤ 1 ∧
    (2 * |y - roundHaReal y| = 1 → |y| < |(roundHaReal y : ℝ)|))

/-- 42_quantizer.md R165: silence maps to 128: a zero of either sign at every scale, every signal at
scale 0, and every scaled signal below one half, under REF64 and under REAL. -/
def Obligations.SilenceQuantizesTo128 : Prop :=
  (∀ k : Word, quantize 0x0000000000000000#64 k = 128#8 ∧ quantize 0x8000000000000000#64 k = 128#8) ∧
  (∀ sig : F64, F64.inUnit sig = true → quantize sig 0#32 = 128#8) ∧
  (∀ (sig : F64) (k : Word), 2 * |F64.units (scaledSignal sig k)| < F64.unitsPerOne →
    quantize sig k = 128#8) ∧
  (∀ k : Word, quantizeReal 0 k = 128#8) ∧ (∀ sig : ℝ, quantizeReal sig 0#32 = 128#8) ∧
  (∀ (sig : ℝ) (k : Word), |sig * 128 * ((k.toNat : ℝ) / 65536)| < 1 / 2 → quantizeReal sig k = 128#8)

/-- 42_quantizer.md R164: for a signal in [-1, 1] and a legal scale the scaled signal lies in
[-128, 128], the clamp acts exactly from 127.5 up, the sample is 255 exactly from 126.5 up, and the
lower end is never clamped; under REF64, and under REAL, where 127.5 is `sig * scale = 0.99609375`
exactly. -/
def Obligations.ClampActsOnlyAtTop : Prop :=
  (∀ (sig : F64) (k : Word), F64.inUnit sig = true → k ≤ 0x10000#32 →
    let y := F64.units (scaledSignal sig k)
    let n := roundHa y F64.unitsPerOne
    |y| ≤ 128 * (F64.unitsPerOne : Int) ∧
    (255 < 128 + n ↔ 255 * (F64.unitsPerOne : Int) ≤ 2 * y) ∧
    (quantize sig k = 255#8 ↔ 253 * (F64.unitsPerOne : Int) ≤ 2 * y) ∧
    0 ≤ 128 + n ∧ 128 + n ≤ 256) ∧
  (∀ (sig : ℝ) (k : Word), -1 ≤ sig → sig ≤ 1 → k ≤ 0x10000#32 →
    let y := sig * 128 * ((k.toNat : ℝ) / 65536)
    let n := roundHaReal y
    |y| ≤ 128 ∧
    (255 < 128 + n ↔ 127.5 ≤ y) ∧ (127.5 ≤ y ↔ 0.99609375 ≤ sig * ((k.toNat : ℝ) / 65536)) ∧
    (quantizeReal sig k = 255#8 ↔ 126.5 ≤ y) ∧
    0 ≤ 128 + n ∧ 128 + n ≤ 256)

/-- 42_quantizer.md R166: at full scale the quantizer reaches every sample; its extremes are not
symmetric about 128; under REF64 and under REAL. -/
def Obligations.QuantizerReachesEverySample : Prop :=
  (∀ b : Byte, ∃ sig : F64, F64.inUnit sig = true ∧ quantize sig 0x10000#32 = b) ∧
  quantize 0x3FF0000000000000#64 0x10000#32 = 255#8 ∧ quantize 0xBFF0000000000000#64 0x10000#32 = 0#8 ∧
  (∀ b : Byte, ∃ sig : ℝ, -1 ≤ sig ∧ sig ≤ 1 ∧ quantizeReal sig 0x10000#32 = b) ∧
  quantizeReal 1 0x10000#32 = 255#8 ∧ quantizeReal (-1) 0x10000#32 = 0#8

/-- 42_quantizer.md R167: for a fixed legal scale the sample does not fall when the signal rises, under
REF64 on [-1, 1] and under REAL; at scale 0 it is 128. -/
def Obligations.QuantizerIsMonotone : Prop :=
  (∀ (a b : F64) (k : Word), F64.inUnit a = true → F64.inUnit b = true → k ≤ 0x10000#32 →
    F64.units a ≤ F64.units b →
    (quantize a k).toNat ≤ (quantize b k).toNat ∧ (k = 0#32 → quantize a k = 128#8)) ∧
  (∀ (a b : ℝ) (k : Word), a ≤ b →
    (quantizeReal a k).toNat ≤ (quantizeReal b k).toNat ∧ (k = 0#32 → quantizeReal a k = 128#8))

/-! ## Exact real arithmetic -/

/-- 40_oscillator.md R135, R131: under REAL the tone is `sin(2 π f i / r)`. -/
def Obligations.RealToneIsSineOfTurns : Prop :=
  ∀ (i : Word) (f : Freq) (r : Word), f ≠ 0#16 → r ≠ 0#32 →
    toneReal i f r = Real.sin (2 * Real.pi * f.toNat * i.toNat / r.toNat)

/-- 40_oscillator.md R139: under REAL the tone is periodic in INDEX with period `r / gcd(f, r)`, a
frequency above the rate aliases to `f mod r`, and at half the rate and at the rate itself the tone
is 0, so SINGLE emits 128. -/
def Obligations.RealToneAliases : Prop :=
  ∀ (i j : Word) (f g : Freq) (r : Word), f ≠ 0#16 → r ≠ 0#32 →
    (i.toNat % (r.toNat / Nat.gcd f.toNat r.toNat) = j.toNat % (r.toNat / Nat.gcd f.toNat r.toNat) →
      toneReal i f r = toneReal j f r) ∧
    (g ≠ 0#16 → g.toNat = f.toNat % r.toNat → toneReal i f r = toneReal i g r) ∧
    (2 * f.toNat = r.toNat ∨ f.toNat = r.toNat →
      toneReal i f r = 0 ∧ ∀ k : Word, quantizeReal (toneReal i f r) k = 128#8)

/-- 00_scope.md R8, 40_oscillator.md R135, 43_sample_commands.md R182, R183; model's choice (log entry
5): every command answers a next state on both machines, and the two states are the same, but that a
DUAL or SINGLE whose checks pass emits on the REAL machine the sample of the exact datapath. -/
def Obligations.RealMachineDiffersInSampleOnly : Prop :=
  ∀ (i : Instr) (s : State), ∃ t t', exec i s = .next t ∧ execReal i s = .next t' ∧
    let a := toneReal s.index s.freqA s.sampleRate
    let b := toneReal s.index s.freqB s.sampleRate
    let dual := quantizeReal (mixReal a b) s.ampScale
    let single := quantizeReal a s.ampScale
    ((∀ inc, i = .dual inc → DualReady s →
        t' = { t with sampleOut := dual, out := s.out ++ [dual] }) ∧
      (∀ inc, i = .single inc → SingleReady s →
        t' = { t with sampleOut := single, out := s.out ++ [single] }) ∧
      ((∀ inc, ¬(i = .dual inc ∧ DualReady s) ∧ ¬(i = .single inc ∧ SingleReady s)) → t' = t))

/-- 00_scope.md R8, 20_memory.md R71; model's choice (log entry 5): a step of the REAL machine that
takes a command word runs that command's REAL meaning; any other step, and one that takes a command
but DUAL and SINGLE, is the REF64 machine's; and it keeps the invariant of the block. -/
def Obligations.RealStepRunsRealCommands : Prop :=
  ∀ s : State,
    (∀ (w : Word) (i : Instr) (rest : List Input),
      s.rst = false → s.inputs = .access (memWrite 0x00#6 w) :: rest → decode w = .ok i →
      stepReal s = execReal i { s with inputs := rest }) ∧
    ((∀ (inc : Bool) (rest : List Input), s.rst = false →
        s.inputs ≠ .access (memWrite 0x00#6 (encode (.dual inc))) :: rest ∧
        s.inputs ≠ .access (memWrite 0x00#6 (encode (.single inc))) :: rest) →
      stepReal s = step s) ∧
    (∀ t, BlockInv s → stepReal s = .next t → BlockInv t)

/-! ## Host notation -/

/-- 30_encoding.md R110: what each pseudo-instruction stands for. -/
def Obligations.PseudoInstructionsExpand : Prop :=
  expandLine (.command .nop) = [memWrite 0x00#6 0x00000000#32] ∧
  expandLine (.command (.dual false)) = [memWrite 0x00#6 0x00000001#32] ∧
  expandLine (.command (.dual true)) = [memWrite 0x00#6 0x00000011#32] ∧
  expandLine (.command (.single false)) = [memWrite 0x00#6 0x00000002#32] ∧
  expandLine (.command (.single true)) = [memWrite 0x00#6 0x00000012#32] ∧
  expandLine (.command (.saw false)) = [memWrite 0x00#6 0x00000003#32] ∧
  expandLine (.command (.saw true)) = [memWrite 0x00#6 0x00000013#32] ∧
  expandLine (.command (.silence false)) = [memWrite 0x00#6 0x00000004#32] ∧
  expandLine (.command (.silence true)) = [memWrite 0x00#6 0x00000014#32] ∧
  expandLine (.command .srst) = [memWrite 0x00#6 0x0000000F#32] ∧
  (∀ fA fB : Word, expandLine (.tone fA fB) = [memWrite 0x14#6 fA, memWrite 0x18#6 fB]) ∧
  (∀ n : Word, expandLine (.seek n) = [memWrite 0x1C#6 n])
end

