-- ==== Sys2Proof/Laws/Float64.lean ====
section
/-! SUPPORT. What rounding to binary64 does, said once: magnitudes order their values, rounding is
monotone and keeps what a magnitude represents, and the parts of a packed value read back. -/

namespace Sys2Proof.F64

/-! ### Packing -/

theorem toNat_pack (neg : Bool) {m : Nat} (hm : m < 2 ^ 63) :
    (pack neg m).toNat = (if neg then 2 ^ 63 + m else m) := by
  have : (if neg then 2 ^ 63 + m else m) < 2 ^ 64 := by split <;> omega
  simpa [pack] using Nat.mod_eq_of_lt this

theorem mag_pack (neg : Bool) {m : Nat} (hm : m < 2 ^ 63) : mag (pack neg m) = m := by
  rw [mag, toNat_pack neg hm]
  split <;> omega

theorem isNeg_pack (neg : Bool) {m : Nat} (hm : m < 2 ^ 63) : isNeg (pack neg m) = neg := by
  rw [isNeg, BitVec.msb_eq_decide, toNat_pack neg hm]
  cases neg
  · simpa using hm
  · simp

theorem mag_lt (x : F64) : mag x < 2 ^ 63 := Nat.mod_lt _ (by decide)

/-- A binary64 value is its sign and its magnitude. -/
theorem pack_isNeg_mag (x : F64) : pack (isNeg x) (mag x) = x := by
  apply BitVec.eq_of_toNat_eq
  rw [toNat_pack _ (mag_lt x), isNeg, BitVec.msb_eq_decide, mag]
  have hx : x.toNat < 2 ^ 64 := x.isLt
  simp only [decide_eq_true_eq]
  split <;> omega

theorem eq_of_isNeg_mag {x y : F64} (hs : isNeg x = isNeg y) (hm : mag x = mag y) : x = y := by
  rw [← pack_isNeg_mag x, ← pack_isNeg_mag y, hs, hm]

theorem units_pack (neg : Bool) {m : Nat} (hm : m < 2 ^ 63) :
    units (pack neg m) = if neg then -(magUnits m : Int) else (magUnits m : Int) := by
  rw [units, isNeg_pack neg hm, mag_pack neg hm]

theorem natAbs_units (x : F64) : (units x).natAbs = magUnits (mag x) := by
  rw [units]; split <;> simp

theorem fl_eq_pack (neg : Bool) {n d m : Nat} (h : roundMag n d = m) (hm : m ≤ infMag) :
    fl neg n d = pack neg m := by
  rw [fl, h, Nat.min_eq_left hm]

/-! ### The value of a magnitude -/

theorem magUnits_of_lt {m : Nat} (h : m < 2 ^ 53) : magUnits m = m := by
  rw [magUnits]
  split
  · rfl
  · have h1 : m / 2 ^ 52 = 1 := by omega
    rw [h1]; omega

/-- A magnitude made of an exponent step `k` and a significand `q` stands for `q * 2 ^ k`. -/
theorem magUnits_step (k : Nat) {q : Nat} (hk : k = 0 ∨ 2 ^ 52 ≤ q) (hq : q ≤ 2 ^ 53) :
    magUnits (k * 2 ^ 52 + q) = q * 2 ^ k := by
  by_cases h0 : q < 2 ^ 52
  · obtain rfl : k = 0 := by omega
    simpa using magUnits_of_lt (m := q) (by omega)
  rcases Nat.lt_or_eq_of_le hq with h | rfl
  · have hd : (k * 2 ^ 52 + q) / 2 ^ 52 = k + 1 := by omega
    have hr : (k * 2 ^ 52 + q) % 2 ^ 52 = q - 2 ^ 52 := by omega
    rw [magUnits, hd, hr, if_neg (by omega), Nat.add_sub_cancel' (by omega), Nat.add_sub_cancel]
  · have hd : (k * 2 ^ 52 + 2 ^ 53) / 2 ^ 52 = k + 2 := by omega
    have hr : (k * 2 ^ 52 + 2 ^ 53) % 2 ^ 52 = 0 := by omega
    rw [magUnits, hd, hr, if_neg (by omega), Nat.add_zero, show k + 2 - 1 = k + 1 by omega, pow_succ]
    omega

/-- Every magnitude is such a step and significand. -/
theorem exists_step (m : Nat) :
    ∃ k q, m = k * 2 ^ 52 + q ∧ (k = 0 ∨ 2 ^ 52 ≤ q) ∧ q < 2 ^ 53 := by
  by_cases h : m < 2 ^ 53
  · exact ⟨0, m, by omega, .inl rfl, h⟩
  · exact ⟨m / 2 ^ 52 - 1, m % 2 ^ 52 + 2 ^ 52, by omega, .inr (by omega), by omega⟩

theorem magUnits_lt_succ (m : Nat) : magUnits m < magUnits (m + 1) := by
  obtain ⟨k, q, rfl, hk, hq⟩ := exists_step m
  rw [magUnits_step k hk hq.le, Nat.add_assoc, magUnits_step k (by omega) (by omega)]
  exact Nat.mul_lt_mul_of_pos_right (Nat.lt_succ_self q) (by positivity)

theorem magUnits_strictMono : StrictMono magUnits := strictMono_nat_of_lt_succ magUnits_lt_succ

theorem magUnits_zero : magUnits 0 = 0 := magUnits_of_lt (by decide)

/-! ### Rounding -/

theorem roundHalfEven_cases (n d : Nat) :
    (roundHalfEven n d = n / d ∧ 2 * (n % d) ≤ d) ∨
    (roundHalfEven n d = n / d + 1 ∧ d ≤ 2 * (n % d)) := by
  rw [roundHalfEven]
  split_ifs with h1 h2
  · exact .inl ⟨rfl, h1.le⟩
  · exact .inr ⟨rfl, h2.le⟩
  · rcases Nat.mod_two_eq_zero_or_one (n / d) with h | h
    · exact .inl ⟨by omega, by omega⟩
    · exact .inr ⟨by omega, by omega⟩

theorem le_roundHalfEven (n d : Nat) : n / d ≤ roundHalfEven n d := by
  rcases roundHalfEven_cases n d with h | h <;> omega

theorem roundHalfEven_le (n d : Nat) : roundHalfEven n d ≤ n / d + 1 := by
  rcases roundHalfEven_cases n d with h | h <;> omega

theorem roundHalfEven_mul (q : Nat) {d : Nat} (hd : 0 < d) : roundHalfEven (q * d) d = q := by
  simp [roundHalfEven, hd]

/-- Rounding to an integer is monotone, in cross-multiplied form. -/
theorem roundHalfEven_mono {n d n' d' : Nat} (hd : 0 < d) (hd' : 0 < d') (h : n * d' ≤ n' * d) :
    roundHalfEven n d ≤ roundHalfEven n' d' := by
  have hq : n / d ≤ n' / d' := by
    rw [Nat.le_div_iff_mul_le hd']
    have h1 : n / d * d ≤ n := Nat.div_mul_le_self n d
    have h2 : n / d * d * d' ≤ n' * d := (Nat.mul_le_mul_right d' h1).trans h
    refine Nat.le_of_mul_le_mul_left ?_ hd
    calc d * (n / d * d') = n / d * d * d' := by ring
      _ ≤ d * n' := by rw [Nat.mul_comm d n']; exact h2
  rcases Nat.lt_or_eq_of_le hq with hlt | heq
  · have := roundHalfEven_le n d
    have := le_roundHalfEven n' d'
    omega
  · have e1 : d * (n / d) + n % d = n := Nat.div_add_mod n d
    have e2 : d' * (n' / d') + n' % d' = n' := Nat.div_add_mod n' d'
    have hr : n % d * d' ≤ n' % d' * d := by
      rw [← e1, ← e2, ← heq] at h
      nlinarith
    simp only [roundHalfEven, ← heq]
    by_cases h1 : 2 * (n % d) < d
    · rw [if_pos h1]; split_ifs <;> omega
    · by_cases h2 : d < 2 * (n % d)
      · have h3 : d' < 2 * (n' % d') := by
          by_contra hc
          have : 2 * (n' % d') * d ≤ d' * d := Nat.mul_le_mul_right d (by omega)
          have : d * d' < 2 * (n % d) * d' := Nat.mul_lt_mul_of_pos_right h2 hd'
          nlinarith
        rw [if_neg h1, if_pos h2, if_neg (by omega), if_pos h3]
      · have h3 : ¬ 2 * (n' % d') < d' := by
          intro hc
          have : 2 * (n' % d') * d < d' * d := Nat.mul_lt_mul_of_pos_right hc hd
          have : d * d' ≤ 2 * (n % d) * d' := Nat.mul_le_mul_right d' (by omega)
          nlinarith
        rw [if_neg h1, if_neg h2, if_neg h3]
        split_ifs <;> omega

/-- Where the exponent step of a quotient lies: the significand has at most 53 bits, and exactly 53
where the step is not 0. -/
theorem roundMag_scale (n d : Nat) :
    n / (d * 2 ^ ((n / d).log2 - 52)) < 2 ^ 53 ∧
      ((n / d).log2 - 52 = 0 ∨ 2 ^ 52 ≤ n / (d * 2 ^ ((n / d).log2 - 52))) := by
  generalize hk : (n / d).log2 - 52 = k
  rw [← Nat.div_div_eq_div_mul]
  constructor
  · rw [Nat.div_lt_iff_lt_mul (by positivity), ← pow_add]
    rcases Nat.eq_zero_or_pos (n / d) with h | h
    · rw [h]; positivity
    · exact (Nat.lt_log2_self (n := n / d)).trans_le (Nat.pow_le_pow_right (by decide) (by omega))
  · rcases Nat.eq_zero_or_pos k with h | h
    · exact .inl h
    · refine .inr ((Nat.le_div_iff_mul_le (by positivity)).2 ?_)
      have hne : n / d ≠ 0 := by
        intro h0; simp [h0] at hk; omega
      rw [← pow_add]
      exact (Nat.pow_le_pow_right (by decide) (by omega)).trans (Nat.log2_self_le hne)

/-- Rounding keeps what a magnitude represents. -/
theorem roundMag_magUnits (m : Nat) {d : Nat} (hd : 0 < d) : roundMag (magUnits m * d) d = m := by
  obtain ⟨k, q, rfl, hk, hq⟩ := exists_step m
  have hlog : (q * 2 ^ k).log2 - 52 = k := by
    rcases hk with rfl | hk
    · rcases Nat.eq_zero_or_pos q with rfl | h
      · simp
      · have : q.log2 < 53 := (Nat.log2_lt (by omega)).2 hq
        simp; omega
    · have hne : q * 2 ^ k ≠ 0 := by positivity
      have h1 : (q * 2 ^ k).log2 < 53 + k := by
        rw [Nat.log2_lt hne, pow_add]; exact Nat.mul_lt_mul_of_pos_right hq (by positivity)
      have h2 : 52 + k ≤ (q * 2 ^ k).log2 := by
        rw [Nat.le_log2 hne, pow_add]; exact Nat.mul_le_mul_right _ hk
      omega
  rw [magUnits_step k hk hq.le, roundMag, Nat.mul_div_cancel _ hd, hlog,
    show q * 2 ^ k * d = q * (d * 2 ^ k) by ring, roundHalfEven_mul q (by positivity)]

/-- Rounding is monotone, in cross-multiplied form. -/
theorem roundMag_mono {n d n' d' : Nat} (hd : 0 < d) (hd' : 0 < d') (h : n * d' ≤ n' * d) :
    roundMag n d ≤ roundMag n' d' := by
  have hq : n / d ≤ n' / d' := by
    rw [Nat.le_div_iff_mul_le hd']
    refine Nat.le_of_mul_le_mul_left ?_ hd
    calc d * (n / d * d') = n / d * d * d' := by ring
      _ ≤ n * d' := Nat.mul_le_mul_right d' (Nat.div_mul_le_self n d)
      _ ≤ d * n' := by rw [Nat.mul_comm d n']; exact h
  have hk : (n / d).log2 - 52 ≤ (n' / d').log2 - 52 := by
    have : (n / d).log2 ≤ (n' / d').log2 := by
      rw [Nat.log2_eq_log_two, Nat.log2_eq_log_two]; exact Nat.log_mono_right hq
    omega
  obtain ⟨hlt, -⟩ := roundMag_scale n d
  obtain ⟨-, hge⟩ := roundMag_scale n' d'
  rw [roundMag, roundMag]
  generalize (n / d).log2 - 52 = k at *
  generalize (n' / d').log2 - 52 = k' at *
  rcases Nat.lt_or_eq_of_le hk with hk | rfl
  · have h1 := roundHalfEven_le n (d * 2 ^ k)
    have h2 := le_roundHalfEven n' (d' * 2 ^ k')
    omega
  · refine Nat.add_le_add_left (roundHalfEven_mono (by positivity) (by positivity) ?_) _
    calc n * (d' * 2 ^ k) = n * d' * 2 ^ k := by ring
      _ ≤ n' * d * 2 ^ k := Nat.mul_le_mul_right _ h
      _ = n' * (d * 2 ^ k) := by ring

theorem roundMag_le {n d m : Nat} (hd : 0 < d) (h : n ≤ magUnits m * d) : roundMag n d ≤ m := by
  rw [← roundMag_magUnits m hd]
  exact roundMag_mono hd hd (Nat.mul_le_mul_right d h)

theorem le_roundMag {n d m : Nat} (hd : 0 < d) (h : magUnits m * d ≤ n) : m ≤ roundMag n d := by
  rw [← roundMag_magUnits m hd]
  exact roundMag_mono hd hd (Nat.mul_le_mul_right d h)

theorem roundMag_zero (d : Nat) : roundMag 0 d = 0 := by simp [roundMag, roundHalfEven]

/-! ### Operations on finite values -/

/-- To be cited in place of the definition, whose unfolding makes tactics evaluate its powers. -/
theorem twiceOverflow_eq : twiceOverflow = magUnits (infMag - 1) + magUnits infMag := by
  unfold twiceOverflow; rfl

theorem infMag_lt : infMag < 2 ^ 63 := by decide

theorem oneMag_le_infMag : oneMag ≤ infMag := by decide

theorem mag_fl (neg : Bool) (n d : Nat) : mag (fl neg n d) = min (roundMag n d) infMag :=
  mag_pack neg ((min_le_right _ _).trans_lt infMag_lt)

theorem isNeg_fl (neg : Bool) (n d : Nat) : isNeg (fl neg n d) = neg :=
  isNeg_pack neg ((min_le_right _ _).trans_lt infMag_lt)

theorem isFinite_of_inUnit {x : F64} (h : inUnit x = true) : isFinite x = true := by
  simp only [inUnit, isFinite, decide_eq_true_eq] at *
  exact h.trans_lt (by decide)

theorem not_isNaN_of_isFinite {x : F64} (h : isFinite x = true) : isNaN x = false := by
  simp only [isFinite, isNaN, decide_eq_true_eq, decide_eq_false_iff_not] at *; omega

theorem not_isInf_of_isFinite {x : F64} (h : isFinite x = true) : isInf x = false := by
  simp only [isFinite, isInf, decide_eq_true_eq, beq_eq_false_iff_ne] at *; omega

theorem add_of_finite {a b : F64} (ha : isFinite a = true) (hb : isFinite b = true) :
    add a b = if units a + units b = 0 then pack (isNeg a && isNeg b) 0
      else fl (decide (units a + units b < 0)) (units a + units b).natAbs 1 := by
  simp [add, not_isNaN_of_isFinite, not_isInf_of_isFinite, ha, hb]

theorem mul_of_finite {a b : F64} (ha : isFinite a = true) (hb : isFinite b = true) :
    mul a b = fl (isNeg a != isNeg b) (magUnits (mag a) * magUnits (mag b)) unitsPerOne := by
  simp [mul, not_isNaN_of_isFinite, not_isInf_of_isFinite, ha, hb]

theorem div_of_finite {a b : F64} (ha : isFinite a = true) (hb : isFinite b = true)
    (h0 : isZero b = false) :
    div a b = fl (isNeg a != isNeg b) (magUnits (mag a) * unitsPerOne) (magUnits (mag b)) := by
  simp [div, not_isNaN_of_isFinite, not_isInf_of_isFinite, ha, hb, h0]

theorem unitsPerOne_pos : 0 < unitsPerOne := by
  unfold unitsPerOne; apply Nat.pow_pos; decide

/-- The magnitude of 1.0 stands for 2^1074 units. -/
theorem magUnits_oneMag : magUnits oneMag = unitsPerOne := by
  decide +kernel

/-- A nonzero magnitude stands for a positive number of units. -/
theorem magUnits_pos {m : Nat} (h : 0 < m) : 0 < magUnits m := by
  rw [← magUnits_zero]; exact magUnits_strictMono h

/-- The values in [-1, 1] are those of at most 2^1074 units. -/
theorem inUnit_iff (x : F64) : inUnit x = true ↔ magUnits (mag x) ≤ unitsPerOne := by
  rw [← magUnits_oneMag, magUnits_strictMono.le_iff_le, inUnit, decide_eq_true_eq]

end Sys2Proof.F64
end

