-- ==== Sys2Proof/Laws/State.lean ====
section
/-! SUPPORT. One lemma per field per operation that changes the state: what each operation does to
each field, true by unfolding once. -/

namespace Sys2Proof.Machine

/-! ### Fault entry -/

@[simp] theorem raiseFault_status (codes : List Cause) (w : Word) (s : State) :
    (raiseFault codes w s).status = recordCauses codes s.status := rfl

@[simp] theorem raiseFault_faultCmd (codes : List Cause) (w : Word) (s : State) :
    (raiseFault codes w s).faultCmd = w := rfl

@[simp] theorem raiseFault_sampleRate (codes : List Cause) (w : Word) (s : State) :
    (raiseFault codes w s).sampleRate = s.sampleRate := rfl

@[simp] theorem raiseFault_ampScale (codes : List Cause) (w : Word) (s : State) :
    (raiseFault codes w s).ampScale = s.ampScale := rfl

@[simp] theorem raiseFault_freqA (codes : List Cause) (w : Word) (s : State) :
    (raiseFault codes w s).freqA = s.freqA := rfl

@[simp] theorem raiseFault_freqB (codes : List Cause) (w : Word) (s : State) :
    (raiseFault codes w s).freqB = s.freqB := rfl

@[simp] theorem raiseFault_index (codes : List Cause) (w : Word) (s : State) :
    (raiseFault codes w s).index = s.index := rfl

@[simp] theorem raiseFault_sampleOut (codes : List Cause) (w : Word) (s : State) :
    (raiseFault codes w s).sampleOut = s.sampleOut := rfl

@[simp] theorem raiseFault_sampleCount (codes : List Cause) (w : Word) (s : State) :
    (raiseFault codes w s).sampleCount = s.sampleCount := rfl

@[simp] theorem raiseFault_out (codes : List Cause) (w : Word) (s : State) :
    (raiseFault codes w s).out = s.out := rfl

@[simp] theorem raiseFault_rst (codes : List Cause) (w : Word) (s : State) :
    (raiseFault codes w s).rst = s.rst := rfl

@[simp] theorem raiseFault_inputs (codes : List Cause) (w : Word) (s : State) :
    (raiseFault codes w s).inputs = s.inputs := rfl

@[simp] theorem raiseFault_reads (codes : List Cause) (w : Word) (s : State) :
    (raiseFault codes w s).reads = s.reads := rfl

@[simp] theorem raiseFault_sineRom (codes : List Cause) (w : Word) (s : State) :
    (raiseFault codes w s).sineRom = s.sineRom := rfl

/-! ### Reset -/

@[simp] theorem resetRegisters_status (s : State) :
    (resetRegisters s).status = State.reset.status := rfl

@[simp] theorem resetRegisters_faultCmd (s : State) :
    (resetRegisters s).faultCmd = State.reset.faultCmd := rfl

@[simp] theorem resetRegisters_sampleRate (s : State) :
    (resetRegisters s).sampleRate = State.reset.sampleRate := rfl

@[simp] theorem resetRegisters_ampScale (s : State) :
    (resetRegisters s).ampScale = State.reset.ampScale := rfl

@[simp] theorem resetRegisters_freqA (s : State) :
    (resetRegisters s).freqA = State.reset.freqA := rfl

@[simp] theorem resetRegisters_freqB (s : State) :
    (resetRegisters s).freqB = State.reset.freqB := rfl

@[simp] theorem resetRegisters_index (s : State) :
    (resetRegisters s).index = State.reset.index := rfl

@[simp] theorem resetRegisters_sampleOut (s : State) :
    (resetRegisters s).sampleOut = State.reset.sampleOut := rfl

@[simp] theorem resetRegisters_sampleCount (s : State) :
    (resetRegisters s).sampleCount = State.reset.sampleCount := rfl

@[simp] theorem resetRegisters_out (s : State) :
    (resetRegisters s).out = s.out := rfl

@[simp] theorem resetRegisters_rst (s : State) :
    (resetRegisters s).rst = s.rst := rfl

@[simp] theorem resetRegisters_inputs (s : State) :
    (resetRegisters s).inputs = s.inputs := rfl

@[simp] theorem resetRegisters_reads (s : State) :
    (resetRegisters s).reads = s.reads := rfl

@[simp] theorem resetRegisters_sineRom (s : State) :
    (resetRegisters s).sineRom = s.sineRom := rfl

/-! ### Emitting a sample -/

@[simp] theorem emit_status (x : Byte) (s : State) :
    (emit x s).status = s.status := rfl

@[simp] theorem emit_faultCmd (x : Byte) (s : State) :
    (emit x s).faultCmd = s.faultCmd := rfl

@[simp] theorem emit_sampleRate (x : Byte) (s : State) :
    (emit x s).sampleRate = s.sampleRate := rfl

@[simp] theorem emit_ampScale (x : Byte) (s : State) :
    (emit x s).ampScale = s.ampScale := rfl

@[simp] theorem emit_freqA (x : Byte) (s : State) :
    (emit x s).freqA = s.freqA := rfl

@[simp] theorem emit_freqB (x : Byte) (s : State) :
    (emit x s).freqB = s.freqB := rfl

@[simp] theorem emit_index (x : Byte) (s : State) :
    (emit x s).index = s.index := rfl

@[simp] theorem emit_sampleOut (x : Byte) (s : State) :
    (emit x s).sampleOut = x := rfl

@[simp] theorem emit_sampleCount (x : Byte) (s : State) :
    (emit x s).sampleCount = s.sampleCount := rfl

@[simp] theorem emit_out (x : Byte) (s : State) :
    (emit x s).out = s.out ++ [x] := rfl

@[simp] theorem emit_rst (x : Byte) (s : State) :
    (emit x s).rst = s.rst := rfl

@[simp] theorem emit_inputs (x : Byte) (s : State) :
    (emit x s).inputs = s.inputs := rfl

@[simp] theorem emit_reads (x : Byte) (s : State) :
    (emit x s).reads = s.reads := rfl

@[simp] theorem emit_sineRom (x : Byte) (s : State) :
    (emit x s).sineRom = s.sineRom := rfl

/-! ### Commit -/

@[simp] theorem commit_status (x : Byte) (inc : Bool) (s : State) :
    (commit x inc s).status = s.status := rfl

@[simp] theorem commit_faultCmd (x : Byte) (inc : Bool) (s : State) :
    (commit x inc s).faultCmd = s.faultCmd := rfl

@[simp] theorem commit_sampleRate (x : Byte) (inc : Bool) (s : State) :
    (commit x inc s).sampleRate = s.sampleRate := rfl

@[simp] theorem commit_ampScale (x : Byte) (inc : Bool) (s : State) :
    (commit x inc s).ampScale = s.ampScale := rfl

@[simp] theorem commit_freqA (x : Byte) (inc : Bool) (s : State) :
    (commit x inc s).freqA = s.freqA := rfl

@[simp] theorem commit_freqB (x : Byte) (inc : Bool) (s : State) :
    (commit x inc s).freqB = s.freqB := rfl

@[simp] theorem commit_index (x : Byte) (inc : Bool) (s : State) :
    (commit x inc s).index = if inc then s.index + 1#32 else s.index := rfl

@[simp] theorem commit_sampleOut (x : Byte) (inc : Bool) (s : State) :
    (commit x inc s).sampleOut = x := rfl

@[simp] theorem commit_sampleCount (x : Byte) (inc : Bool) (s : State) :
    (commit x inc s).sampleCount = s.sampleCount + 1#32 := rfl

@[simp] theorem commit_out (x : Byte) (inc : Bool) (s : State) :
    (commit x inc s).out = s.out ++ [x] := rfl

@[simp] theorem commit_rst (x : Byte) (inc : Bool) (s : State) :
    (commit x inc s).rst = s.rst := rfl

@[simp] theorem commit_inputs (x : Byte) (inc : Bool) (s : State) :
    (commit x inc s).inputs = s.inputs := rfl

@[simp] theorem commit_reads (x : Byte) (inc : Bool) (s : State) :
    (commit x inc s).reads = s.reads := rfl

@[simp] theorem commit_sineRom (x : Byte) (inc : Bool) (s : State) :
    (commit x inc s).sineRom = s.sineRom := rfl

/-! ### A read -/

@[simp] theorem performRead_status (a : Offset) (s : State) :
    (performRead a s).status = s.status := rfl

@[simp] theorem performRead_faultCmd (a : Offset) (s : State) :
    (performRead a s).faultCmd = s.faultCmd := rfl

@[simp] theorem performRead_sampleRate (a : Offset) (s : State) :
    (performRead a s).sampleRate = s.sampleRate := rfl

@[simp] theorem performRead_ampScale (a : Offset) (s : State) :
    (performRead a s).ampScale = s.ampScale := rfl

@[simp] theorem performRead_freqA (a : Offset) (s : State) :
    (performRead a s).freqA = s.freqA := rfl

@[simp] theorem performRead_freqB (a : Offset) (s : State) :
    (performRead a s).freqB = s.freqB := rfl

@[simp] theorem performRead_index (a : Offset) (s : State) :
    (performRead a s).index = s.index := rfl

@[simp] theorem performRead_sampleOut (a : Offset) (s : State) :
    (performRead a s).sampleOut = s.sampleOut := rfl

@[simp] theorem performRead_sampleCount (a : Offset) (s : State) :
    (performRead a s).sampleCount = s.sampleCount := rfl

@[simp] theorem performRead_out (a : Offset) (s : State) :
    (performRead a s).out = s.out := rfl

@[simp] theorem performRead_rst (a : Offset) (s : State) :
    (performRead a s).rst = s.rst := rfl

@[simp] theorem performRead_inputs (a : Offset) (s : State) :
    (performRead a s).inputs = s.inputs := rfl

@[simp] theorem performRead_reads (a : Offset) (s : State) :
    (performRead a s).reads = s.reads ++ [readOffset a s] := rfl

@[simp] theorem performRead_sineRom (a : Offset) (s : State) :
    (performRead a s).sineRom = s.sineRom := rfl

/-! ### Taking an input -/

@[simp] theorem withInputs_status (l : List Input) (s : State) :
    (withInputs l s).status = s.status := rfl

@[simp] theorem withInputs_faultCmd (l : List Input) (s : State) :
    (withInputs l s).faultCmd = s.faultCmd := rfl

@[simp] theorem withInputs_sampleRate (l : List Input) (s : State) :
    (withInputs l s).sampleRate = s.sampleRate := rfl

@[simp] theorem withInputs_ampScale (l : List Input) (s : State) :
    (withInputs l s).ampScale = s.ampScale := rfl

@[simp] theorem withInputs_freqA (l : List Input) (s : State) :
    (withInputs l s).freqA = s.freqA := rfl

@[simp] theorem withInputs_freqB (l : List Input) (s : State) :
    (withInputs l s).freqB = s.freqB := rfl

@[simp] theorem withInputs_index (l : List Input) (s : State) :
    (withInputs l s).index = s.index := rfl

@[simp] theorem withInputs_sampleOut (l : List Input) (s : State) :
    (withInputs l s).sampleOut = s.sampleOut := rfl

@[simp] theorem withInputs_sampleCount (l : List Input) (s : State) :
    (withInputs l s).sampleCount = s.sampleCount := rfl

@[simp] theorem withInputs_out (l : List Input) (s : State) :
    (withInputs l s).out = s.out := rfl

@[simp] theorem withInputs_rst (l : List Input) (s : State) :
    (withInputs l s).rst = s.rst := rfl

@[simp] theorem withInputs_inputs (l : List Input) (s : State) :
    (withInputs l s).inputs = l := rfl

@[simp] theorem withInputs_reads (l : List Input) (s : State) :
    (withInputs l s).reads = s.reads := rfl

@[simp] theorem withInputs_sineRom (l : List Input) (s : State) :
    (withInputs l s).sineRom = s.sineRom := rfl

/-! ### Offering a command word -/

@[simp] theorem offerWord_status (nbits w : Nat) (s : State) :
    (offerWord nbits w s).status = s.status := rfl

@[simp] theorem offerWord_faultCmd (nbits w : Nat) (s : State) :
    (offerWord nbits w s).faultCmd = s.faultCmd := rfl

@[simp] theorem offerWord_sampleRate (nbits w : Nat) (s : State) :
    (offerWord nbits w s).sampleRate = s.sampleRate := rfl

@[simp] theorem offerWord_ampScale (nbits w : Nat) (s : State) :
    (offerWord nbits w s).ampScale = s.ampScale := rfl

@[simp] theorem offerWord_freqA (nbits w : Nat) (s : State) :
    (offerWord nbits w s).freqA = s.freqA := rfl

@[simp] theorem offerWord_freqB (nbits w : Nat) (s : State) :
    (offerWord nbits w s).freqB = s.freqB := rfl

@[simp] theorem offerWord_index (nbits w : Nat) (s : State) :
    (offerWord nbits w s).index = s.index := rfl

@[simp] theorem offerWord_sampleOut (nbits w : Nat) (s : State) :
    (offerWord nbits w s).sampleOut = s.sampleOut := rfl

@[simp] theorem offerWord_sampleCount (nbits w : Nat) (s : State) :
    (offerWord nbits w s).sampleCount = s.sampleCount := rfl

@[simp] theorem offerWord_out (nbits w : Nat) (s : State) :
    (offerWord nbits w s).out = s.out := rfl

@[simp] theorem offerWord_rst (nbits w : Nat) (s : State) :
    (offerWord nbits w s).rst = false := rfl

@[simp] theorem offerWord_inputs (nbits w : Nat) (s : State) :
    (offerWord nbits w s).inputs = .access (memWrite (regOffset .cmd) (BitVec.ofNat 32 (w % 2 ^ nbits))) :: s.inputs := rfl

@[simp] theorem offerWord_reads (nbits w : Nat) (s : State) :
    (offerWord nbits w s).reads = s.reads := rfl

@[simp] theorem offerWord_sineRom (nbits w : Nat) (s : State) :
    (offerWord nbits w s).sineRom = s.sineRom := rfl

/-! ### The fields no register write touches -/

@[simp] theorem writeReg_status (a : Offset) (v : Word) (s : State) :
    (writeReg a v s).status = s.status := by
  unfold writeReg; split <;> rfl

@[simp] theorem writeReg_faultCmd (a : Offset) (v : Word) (s : State) :
    (writeReg a v s).faultCmd = s.faultCmd := by
  unfold writeReg; split <;> rfl

@[simp] theorem writeReg_sampleOut (a : Offset) (v : Word) (s : State) :
    (writeReg a v s).sampleOut = s.sampleOut := by
  unfold writeReg; split <;> rfl

@[simp] theorem writeReg_sampleCount (a : Offset) (v : Word) (s : State) :
    (writeReg a v s).sampleCount = s.sampleCount := by
  unfold writeReg; split <;> rfl

@[simp] theorem writeReg_out (a : Offset) (v : Word) (s : State) :
    (writeReg a v s).out = s.out := by
  unfold writeReg; split <;> rfl

@[simp] theorem writeReg_rst (a : Offset) (v : Word) (s : State) :
    (writeReg a v s).rst = s.rst := by
  unfold writeReg; split <;> rfl

@[simp] theorem writeReg_inputs (a : Offset) (v : Word) (s : State) :
    (writeReg a v s).inputs = s.inputs := by
  unfold writeReg; split <;> rfl

@[simp] theorem writeReg_reads (a : Offset) (v : Word) (s : State) :
    (writeReg a v s).reads = s.reads := by
  unfold writeReg; split <;> rfl

@[simp] theorem writeReg_sineRom (a : Offset) (v : Word) (s : State) :
    (writeReg a v s).sineRom = s.sineRom := by
  unfold writeReg; split <;> rfl

@[simp] theorem writeReg_halted (a : Offset) (v : Word) (s : State) :
    (writeReg a v s).halted = s.halted := by
  simp [State.halted]

@[simp] theorem resetRegisters_halted (s : State) : (resetRegisters s).halted = false := rfl

@[simp] theorem commit_halted (x : Byte) (inc : Bool) (s : State) :
    (commit x inc s).halted = s.halted := rfl

@[simp] theorem performRead_halted (a : Offset) (s : State) :
    (performRead a s).halted = s.halted := rfl

@[simp] theorem withInputs_halted (l : List Input) (s : State) :
    (withInputs l s).halted = s.halted := rfl

end Sys2Proof.Machine
end

