-- ==== Sys2Proof/Laws/Ops.lean ====
section
/-! SUPPORT. What each shared operation can do, said once: byte lanes, decoding, the register map,
STATUS, and the forms a command's next state can have. -/

namespace Sys2Proof.Machine

/-! ### Byte lanes and the register map -/

theorem wordOfLanes_lanesOf (w : Word) : wordOfLanes (lanesOf w) = some w := by
  have h : w.extractLsb' 24 8 ++ w.extractLsb' 16 8 ++ w.extractLsb' 8 8 ++ w.extractLsb' 0 8 = w := by
    apply BitVec.eq_of_getLsbD_eq
    intro i hi
    simp only [BitVec.getLsbD_append, BitVec.getLsbD_extractLsb']
    by_cases h1 : i < 8
    · simp [h1]
    by_cases h2 : i - 8 < 8
    · simp [h1, h2, show 8 + (i - 8) = i by omega]
    by_cases h3 : i - 8 - 8 < 8
    · simp [h1, h2, h3, show 16 + (i - 8 - 8) = i by omega]
    · simp [h1, h2, h3, show 24 + (i - 8 - 8 - 8) = i by omega, show i - 8 - 8 - 8 < 8 by omega]
  simpa [wordOfLanes, lanesOf] using h

theorem lanesOf_length (w : Word) : (lanesOf w).length = 4 := rfl

theorem regAt_regOffset (r : Reg) : regAt (regOffset r) = some r := by cases r <;> rfl

theorem readOffset_regOffset (r : Reg) (s : State) : readOffset (regOffset r) s = readReg s r := by
  rw [readOffset, regAt_regOffset]

theorem memWrite_wellFormed (a : Offset) (v : Word) :
    (memWrite a v).wellFormed = decide (a.toNat % 4 = 0) := by
  simp [Access.wellFormed, Access.isWord, Access.isAligned, Access.width, Access.addr, memWrite,
    lanesOf_length, beq_eq_decide]

theorem memRead_wellFormed (a : Offset) :
    (memRead a).wellFormed = decide (a.toNat % 4 = 0) := by
  simp [Access.wellFormed, Access.isWord, Access.isAligned, Access.width, Access.addr, memRead,
    beq_eq_decide]

/-! ### Halted or not -/

@[simp] theorem unlessHalted_of_halted {s : State} (h : s.halted = true) (after : State) :
    unlessHalted s after = s := by simp [unlessHalted, h]

@[simp] theorem unlessHalted_of_running {s : State} (h : s.halted = false) (after : State) :
    unlessHalted s after = after := by simp [unlessHalted, h]

/-- A block that is not halted has no fault bit set (10_state.md R34). -/
theorem bits_of_running {s : State} (h : s.halted = false) :
    s.status.badCmd = false ∧ s.status.zeroRate = false ∧ s.status.pair = false ∧
      s.status.zeroFreq = false := by
  simpa [State.halted, statusHalted, and_assoc] using h

/-- On a block that is not halted, only the causes decide what STATUS becomes (60_exceptions.md R236). -/
theorem recordCauses_of_running {s : State} (h : s.halted = false) (codes : List Cause) :
    recordCauses codes s.status = recordCauses codes Status.clear := by
  have hs : s.status = { Status.clear with faultCode := s.status.faultCode } := by
    obtain ⟨h1, h2, h3, h4⟩ := bits_of_running h
    cases hst : s.status
    simp_all [Status.clear]
  have key : ∀ (codes : List Cause) (t : Status) (c : BitVec 4),
      codes.foldl setCause { t with faultCode := c } =
        { codes.foldl setCause t with faultCode := c } := by
    intro codes
    induction codes with
    | nil => intro t c; rfl
    | cons x rest ih =>
      intro t c
      have hx : setCause { t with faultCode := c } x = { setCause t x with faultCode := c } := by
        cases x <;> rfl
      rw [List.foldl_cons, hx, ih]
      rfl
  rw [hs, recordCauses, recordCauses, key]

/-- A fault bit, once set, stays set while more are recorded. -/
theorem statusHalted_foldl (codes : List Cause) (t : Status) (h : statusHalted t = true) :
    statusHalted (codes.foldl setCause t) = true := by
  induction codes generalizing t with
  | nil => exact h
  | cons c rest ih => exact ih _ (by cases c <;> simp_all [setCause, statusHalted])

/-- Recording any cause halts the block (10_state.md R34). -/
theorem raiseFault_halted {codes : List Cause} (h : codes ≠ []) (w : Word) (s : State) :
    (raiseFault codes w s).halted = true := by
  cases codes with
  | nil => exact absurd rfl h
  | cons c rest =>
    exact statusHalted_foldl rest _ (by cases c <;> simp [setCause, statusHalted])

/-! ### Commands -/

theorem sampleCommand_cases (codes : List Cause) (x : Byte) (w : Word) (inc : Bool) (s : State) :
    (codes = [] ∧ sampleCommand codes x w inc s = commit x inc s) ∨
    (codes ≠ [] ∧ sampleCommand codes x w inc s = raiseFault codes w s) := by
  rw [sampleCommand]
  split
  · exact .inl ⟨‹_›, rfl⟩
  · exact .inr ⟨‹_›, rfl⟩

/-- Two samples of one command whose checks pass give next states that differ in the sample alone. -/
theorem unlessHalted_sampleCommand_sample {codes : List Cause} {s : State} (h : s.halted = false)
    (hc : codes = []) (x y : Byte) (w : Word) (inc : Bool) :
    unlessHalted s (sampleCommand codes x w inc s) =
      { unlessHalted s (sampleCommand codes y w inc s) with sampleOut := x, out := s.out ++ [x] } := by
  simp [h, hc, sampleCommand, commit, emit]

/-- Where the checks do not all pass, or the block is halted, the sample does not matter. -/
theorem unlessHalted_sampleCommand_fault {codes : List Cause} {s : State}
    (h : ¬(s.halted = false ∧ codes = [])) (x y : Byte) (w : Word) (inc : Bool) :
    unlessHalted s (sampleCommand codes x w inc s) = unlessHalted s (sampleCommand codes y w inc s) := by
  cases hh : s.halted
  · simp [hh, sampleCommand, show codes ≠ [] from fun hc => h ⟨hh, hc⟩]
  · simp [hh]

theorem dualCauses_eq_nil (s : State) :
    dualCauses s = [] ↔ s.sampleRate ≠ 0#32 ∧ s.freqA ≠ 0#16 ∧ s.freqB ≠ 0#16 := by
  by_cases h1 : s.sampleRate = 0#32 <;> by_cases h2 : s.freqA = 0#16 <;>
    by_cases h3 : s.freqB = 0#16 <;> simp [dualCauses, causesOf, h1, h2, h3]

theorem singleCauses_eq_nil (s : State) :
    singleCauses s = [] ↔ s.sampleRate ≠ 0#32 ∧ s.freqA ≠ 0#16 := by
  by_cases h1 : s.sampleRate = 0#32 <;> by_cases h2 : s.freqA = 0#16 <;>
    simp [singleCauses, causesOf, h1, h2]

end Sys2Proof.Machine
end

