-- ==== Sys2Proof/Laws/PerInstr.lean ====
section
/-! SUPPORT. Statements made per command, one lemma per constructor. -/

/-- The fields of a command's word (30_encoding.md R100): OP, INC, and RSVD 0. -/
def Sys2Proof.Laws.EncodingFields.Statement (i : Sys2Proof.Instr) : Prop :=
  (Sys2Proof.encode i).extractLsb' 0 4 = Sys2Proof.opField i ∧
  (Sys2Proof.encode i).getLsbD 4 = Sys2Proof.incField i ∧
  (Sys2Proof.encode i).extractLsb' 5 27 = 0#27 ∧
  Sys2Proof.CmdWord.wellFormed (Sys2Proof.encode i) = true

theorem Sys2Proof.Laws.EncodingFields.nop : Sys2Proof.Laws.EncodingFields.Statement .nop := by
  unfold Sys2Proof.Laws.EncodingFields.Statement; decide

theorem Sys2Proof.Laws.EncodingFields.dual (inc : Bool) :
    Sys2Proof.Laws.EncodingFields.Statement (.dual inc) := by
  unfold Sys2Proof.Laws.EncodingFields.Statement; cases inc <;> decide

theorem Sys2Proof.Laws.EncodingFields.single (inc : Bool) :
    Sys2Proof.Laws.EncodingFields.Statement (.single inc) := by
  unfold Sys2Proof.Laws.EncodingFields.Statement; cases inc <;> decide

theorem Sys2Proof.Laws.EncodingFields.saw (inc : Bool) :
    Sys2Proof.Laws.EncodingFields.Statement (.saw inc) := by
  unfold Sys2Proof.Laws.EncodingFields.Statement; cases inc <;> decide

theorem Sys2Proof.Laws.EncodingFields.silence (inc : Bool) :
    Sys2Proof.Laws.EncodingFields.Statement (.silence inc) := by
  unfold Sys2Proof.Laws.EncodingFields.Statement; cases inc <;> decide

theorem Sys2Proof.Laws.EncodingFields.srst : Sys2Proof.Laws.EncodingFields.Statement .srst := by
  unfold Sys2Proof.Laws.EncodingFields.Statement; decide
end

