-- ==== Sys2Proof/Laws/Step.lean ====
section
/-! SUPPORT. What a step can do, said once, for either number system. -/

namespace Sys2Proof.Machine

variable {meaning : Instr → State → Host.Outcome State Fault Refusal} {s t : State}

theorem nextInput_running (a : Access) (rest : List Input) :
    nextInput false (.access a :: rest) = some (.access a, rest) := rfl

/-- An access is taken only while `rst` is not asserted, and then it is the oldest input. -/
theorem nextInput_access {rst : Bool} {l rest : List Input} {a : Access}
    (h : nextInput rst l = some (.access a, rest)) : rst = false ∧ l = .access a :: rest := by
  cases rst with
  | false =>
    cases l with
    | nil => simp [nextInput] at h
    | cons x l => cases x <;> simp_all [nextInput]
  | true =>
    exfalso
    induction l generalizing rest with
    | nil => simp [nextInput] at h
    | cons x l ih =>
      cases x with
      | rst level => simp [nextInput] at h
      | access b =>
        simp only [nextInput, if_true, Option.map_eq_some_iff, Prod.mk.injEq] at h
        obtain ⟨⟨y, l'⟩, hl, rfl, -⟩ := h
        exact ih hl

theorem nextInput_rst_mem {rst level : Bool} {l rest : List Input}
    (h : nextInput rst l = some (.rst level, rest)) : Input.rst level ∈ l := by
  induction l generalizing rest with
  | nil => simp [nextInput] at h
  | cons x l ih =>
    cases x with
    | rst b => simp_all [nextInput]
    | access b =>
      cases rst <;> simp only [nextInput, if_true, Bool.false_eq_true, if_false,
        Option.map_eq_some_iff, Option.some.injEq, Prod.mk.injEq, reduceCtorEq, false_and] at h
      obtain ⟨⟨y, l'⟩, hl, rfl, -⟩ := h
      exact List.mem_cons_of_mem _ (ih hl)

/-- The four lanes of a word are its own. -/
theorem lanes_of_wordOfLanes {lanes : List Byte} {v : Word} (h : wordOfLanes lanes = some v) :
    lanes = lanesOf v := by
  match lanes, h with
  | [b0, b1, b2, b3], h =>
    simp only [wordOfLanes, Option.some.injEq] at h
    subst h
    simp only [lanesOf, List.cons.injEq, and_true]
    refine ⟨?_, ?_, ?_, ?_⟩ <;> apply BitVec.eq_of_getLsbD_eq <;> intro i hi <;>
      simp only [BitVec.getLsbD_extractLsb', BitVec.getLsbD_append, hi, decide_true, Bool.true_and]
    · simp [hi]
    · simp [show ¬ 8 + i < 8 by omega, hi, show 8 + i - 8 = i by omega]
    · simp [show ¬ 16 + i < 8 by omega, show ¬ 16 + i - 8 < 8 by omega,
        show 16 + i - 8 - 8 = i by omega, hi]
    · simp [show ¬ 24 + i < 8 by omega, show ¬ 24 + i - 8 < 8 by omega,
        show ¬ 24 + i - 8 - 8 < 8 by omega, show 24 + i - 8 - 8 - 8 = i by omega]

/-- An access that gives a next state is an aligned read of a word, or an aligned write of a word. -/
theorem performAccess_cases {a : Access} (h : performAccess meaning a s = .next t) :
    (∃ o, a = memRead o ∧ o.toNat % 4 = 0 ∧ t = performRead o s) ∨
    (∃ o v, a = memWrite o v ∧ o.toNat % 4 = 0 ∧ performWrite meaning o v s = .next t) := by
  unfold performAccess at h
  split_ifs at h with h1 h2
  simp only [Bool.not_eq_true', Bool.not_eq_false, Access.isWord, Access.isAligned, beq_iff_eq] at h1 h2
  cases a with
  | read o n =>
    obtain rfl : n = 4 := h1
    exact .inl ⟨o, rfl, h2, by simpa using h.symm⟩
  | write o lanes =>
    simp only at h
    split at h
    · rename_i v hv
      exact .inr ⟨o, v, by rw [memWrite, lanes_of_wordOfLanes hv], h2, h⟩
    · cases h

/-- A step that takes an aligned write of a word performs it. -/
theorem takeInput_write {o : Offset} {v : Word} {rest : List Input} (hr : s.rst = false)
    (hi : s.inputs = .access (memWrite o v) :: rest) (ho : o.toNat % 4 = 0) :
    takeInput meaning s = performWrite meaning o v (withInputs rest s) := by
  rw [takeInput, hr, hi, nextInput_running]
  simp [performAccess, memWrite, Access.isWord, Access.isAligned, Access.width, Access.addr,
    lanesOf_length, ho, wordOfLanes_lanesOf]

/-- A step that takes an aligned read of a word performs it. -/
theorem takeInput_read {o : Offset} {rest : List Input} (hr : s.rst = false)
    (hi : s.inputs = .access (memRead o) :: rest) (ho : o.toNat % 4 = 0) :
    takeInput meaning s = .next (performRead o (withInputs rest s)) := by
  rw [takeInput, hr, hi, nextInput_running]
  simp [performAccess, memRead, Access.isWord, Access.isAligned, Access.width, Access.addr, ho]

/-- What a step can do: stay, read, write a register, run a command, raise BAD_CMD, or follow
`rst`. -/
theorem takeInput_cases (h : takeInput meaning s = .next t) :
    (nextInput s.rst s.inputs = none ∧ t = s) ∨
    (∃ o rest, s.rst = false ∧ s.inputs = .access (memRead o) :: rest ∧
      t = performRead o (withInputs rest s)) ∨
    (∃ o v rest, s.rst = false ∧ s.inputs = .access (memWrite o v) :: rest ∧ o ≠ 0x00#6 ∧
      t = unlessHalted (withInputs rest s) (writeReg o v (withInputs rest s))) ∨
    (∃ w i rest, s.rst = false ∧ s.inputs = .access (memWrite 0x00#6 w) :: rest ∧ decode w = .ok i ∧
      meaning i (withInputs rest s) = .next t) ∨
    (∃ w e rest, s.rst = false ∧ s.inputs = .access (memWrite 0x00#6 w) :: rest ∧
      decode w = .error e ∧
      t = unlessHalted (withInputs rest s) (raiseFault [.badCmd] w (withInputs rest s))) ∨
    (∃ level rest, nextInput s.rst s.inputs = some (.rst level, rest) ∧
      t = driveRst level (withInputs rest s)) := by
  rw [takeInput] at h
  split at h
  · exact .inl ⟨‹_›, by simpa using h.symm⟩
  · rename_i a rest hn
    obtain ⟨hr, hi⟩ := nextInput_access hn
    rcases performAccess_cases h with ⟨o, rfl, -, ht⟩ | ⟨o, v, rfl, -, hw⟩
    · exact .inr (.inl ⟨o, rest, hr, hi, ht⟩)
    · rw [performWrite] at hw
      split at hw
      · rename_i ho
        change o = 0x00#6 at ho
        subst ho
        rw [runCommand] at hw
        split at hw
        · exact .inr (.inr (.inr (.inl ⟨v, _, rest, hr, hi, ‹_›, hw⟩)))
        · exact .inr (.inr (.inr (.inr (.inl ⟨v, _, rest, hr, hi, ‹_›, by simpa using hw.symm⟩))))
      · exact .inr (.inr (.inl ⟨o, v, rest, hr, hi, ‹_›, by simpa using hw.symm⟩))
  · exact .inr (.inr (.inr (.inr (.inr ⟨_, _, ‹_›, by simpa using h.symm⟩))))

end Sys2Proof.Machine
end

