-- ==== Sys2Proof/Tests/Slice0.lean ====
section
/-! SUPPORT. The model's own tests, each on one step or one function, with expected results from the
spec's tables and worked examples, and for every statement with hypotheses the states that meet
them. -/

namespace Sys2Proof.Tests

open Sys2Proof Sys2Proof.Machine

/-- The outcome is a next state with the given property. -/
def answers (o : Host.Outcome State Fault Refusal) (p : State → Bool) : Bool :=
  match o with
  | .next t => p t
  | .fault _ => false
  | .refused _ => false

/-- The outcome is the given refusal. -/
def refusesWith (o : Host.Outcome State Fault Refusal) (r : Refusal) : Bool :=
  match o with
  | .next _ => false
  | .fault _ => false
  | .refused q => q == r

/-- Configuration C8k of 95_test_vectors.md, at an INDEX. -/
def c8k (i : Word) : State :=
  { State.reset with
    sampleRate := 8000#32, freqA := 697#16, freqB := 1209#16, ampScale := 0x10000#32, index := i }

/-- A state halted by DUAL with FREQ_B unset (95_test_vectors.md P3). -/
def haltedState : State :=
  { c8k 0#32 with
    freqB := 0#16
    status := { badCmd := false, zeroRate := false, pair := true, zeroFreq := true, faultCode := 3#4 }
    faultCmd := 0x00000011#32 }

/-- `s` with one input offered. -/
def offer (x : Input) (s : State) : State := { s with inputs := [x] }

def offerWrite (a : Offset) (v : Word) (s : State) : State := offer (.access (memWrite a v)) s

def offerRead (a : Offset) (s : State) : State := offer (.access (memRead a)) s

/-! ### Well-formedness: an ill-formed term for each check -/

theorem test_rsvd_bit_refused : CmdWord.rsvdZero 0x00000020#32 = false := by decide

theorem test_reserved_op_refused : CmdWord.opAssigned 0x00000005#32 = false := by decide

theorem test_inc_on_srst_refused : CmdWord.incAllowed 0x0000001F#32 = false := by decide

theorem test_ill_formed_words_refused :
    CmdWord.wellFormed 0x80000001#32 = false ∧ CmdWord.wellFormed 0x0000000E#32 = false ∧
      CmdWord.wellFormed 0x00000010#32 = false := by decide

theorem test_halfword_access_refused : (Access.read 0x04#6 2).wellFormed = false := by decide

theorem test_misaligned_access_refused : (memWrite 0x02#6 0#32).wellFormed = false := by decide

theorem test_word_access_well_formed : (memRead 0x3C#6).wellFormed = true := by decide

/-! ### Decoding: words written out from 30_encoding.md R100 and R104 -/

theorem test_decode_nop : decode 0b000000000000000000000000000_0_0000#32 = .ok .nop := by decide

theorem test_decode_dual :
    decode 0b000000000000000000000000000_0_0001#32 = .ok (.dual false) ∧
      decode 0b000000000000000000000000000_1_0001#32 = .ok (.dual true) := by decide

theorem test_decode_single :
    decode 0b000000000000000000000000000_0_0010#32 = .ok (.single false) ∧
      decode 0b000000000000000000000000000_1_0010#32 = .ok (.single true) := by decide

theorem test_decode_saw :
    decode 0b000000000000000000000000000_0_0011#32 = .ok (.saw false) ∧
      decode 0b000000000000000000000000000_1_0011#32 = .ok (.saw true) := by decide

theorem test_decode_silence :
    decode 0b000000000000000000000000000_0_0100#32 = .ok (.silence false) ∧
      decode 0b000000000000000000000000000_1_0100#32 = .ok (.silence true) := by decide

theorem test_decode_srst : decode 0b000000000000000000000000000_0_1111#32 = .ok .srst := by decide

theorem test_decode_rejects_by_name :
    decode 0x00000010#32 = .error .incNotAllowed ∧ decode 0x0000001F#32 = .error .incNotAllowed ∧
      decode 0x00000005#32 = .error .reservedOp ∧ decode 0x0000001E#32 = .error .reservedOp ∧
      decode 0x80000001#32 = .error .reservedBits := by decide

theorem test_decode_bytes_little_endian :
    decodeBytes [0x11#8, 0#8, 0#8, 0#8] = .ok (.dual true) ∧
      decodeBytes [0x11#8, 0#8] = .error .notOneWord := by decide

theorem test_decode_table_word :
    decodeTableWord 32 0xF = some .srst ∧ decodeTableWord 8 0x12 = some (.single true) ∧
      decodeTableWord 32 0x20 = none := by decide

/-! ### One step of each command (95_test_vectors.md L2.5, L2.6, L2.7) -/

/-- L2.5: DUAL under C8k at INDEX 15 emits 252. -/
theorem test_dual_emits : answers (step (offerWrite 0x00#6 0x11#32 (c8k 15#32)))
    (fun t => t.out == [252#8] && t.index == 16#32 && t.sampleCount == 1#32) = true := by
  decide +kernel

/-- L2.6: DUAL with rate 0 and FREQ_A 0 records 0x21D. -/
theorem test_dual_faults :
    answers (step (offerWrite 0x00#6 0x01#32 { c8k 0#32 with sampleRate := 0#32, freqA := 0#16 }))
      (fun t => statusWord t.status == 0x21D#32 && t.faultCmd == 0x01#32 && t.out == []) = true := by
  decide +kernel

/-- L2.5: SINGLE with a quarter-rate tone and scale 1/256 emits 127 at INDEX 3 (a tie). -/
theorem test_single_emits :
    answers (step (offerWrite 0x00#6 0x02#32
        { c8k 3#32 with freqA := 2000#16, freqB := 0#16, ampScale := 0x100#32 }))
      (fun t => t.out == [127#8] && t.index == 3#32) = true := by decide +kernel

/-- L2.6: SINGLE never raises PAIR. -/
theorem test_single_faults :
    answers (step (offerWrite 0x00#6 0x02#32 { c8k 0#32 with freqA := 0#16 }))
      (fun t => statusWord t.status == 0x411#32) = true := by decide +kernel

/-- L2.5: SAW.inc at INDEX 0xFFFFFFFF emits 255 and wraps. -/
theorem test_saw_wraps :
    answers (step (offerWrite 0x00#6 0x13#32 { State.reset with index := 0xFFFFFFFF#32 }))
      (fun t => t.out == [255#8] && t.index == 0#32) = true := by decide +kernel

/-- L2.5: SILENCE.inc at INDEX 7; rule R187: SAMPLE_COUNT wraps. -/
theorem test_silence_counts :
    answers (step (offerWrite 0x00#6 0x14#32
        { State.reset with index := 7#32, sampleCount := 0xFFFFFFFF#32 }))
      (fun t => t.out == [128#8] && t.index == 8#32 && t.sampleCount == 0#32) = true := by
  decide +kernel

/-- L2.7: NOP changes nothing. -/
theorem test_nop : answers (step (offerWrite 0x00#6 0x00#32 (c8k 5#32))) (· == c8k 5#32) = true := by
  decide +kernel

/-- L2.7: SRST on a halted block; OUT is kept. -/
theorem test_srst_leaves_halt :
    answers (step (offerWrite 0x00#6 0x0F#32 { haltedState with out := [1#8, 2#8] }))
      (fun t => t == { State.reset with out := [1#8, 2#8] } && !t.faultPort) = true := by decide +kernel

/-- L2.6: an illegal word. -/
theorem test_bad_word :
    answers (step (offerWrite 0x00#6 0x80000001#32 (c8k 0#32)))
      (fun t => statusWord t.status == 0x103#32 && t.faultCmd == 0x80000001#32) = true := by
  decide +kernel

/-! ### Accesses (95_test_vectors.md L2.4, L2.6) -/

theorem test_scale_write_is_limited :
    answers (step (offerWrite 0x10#6 0xFFFFFFFF#32 State.reset)) (·.ampScale == 0x10000#32) = true ∧
      answers (step (offerWrite 0x10#6 0xFFFF#32 State.reset)) (·.ampScale == 0xFFFF#32) = true := by
  decide +kernel

theorem test_freq_write_keeps_low_half :
    answers (step (offerWrite 0x14#6 0x12345678#32 State.reset)) (·.freqA == 0x5678#16) = true := by
  decide +kernel

theorem test_reads_of_reset :
    answers (step (offerRead 0x20#6 State.reset)) (·.reads == [0x80#32]) = true ∧
      answers (step (offerRead 0x3C#6 State.reset)) (·.reads == [0#32]) = true := by decide +kernel

theorem test_status_is_read_only :
    answers (step (offerWrite 0x04#6 0xFFFFFFFF#32 State.reset)) (· == State.reset) = true := by
  decide +kernel

theorem test_halted_block_ignores_and_is_read :
    answers (step (offerWrite 0x18#6 1209#32 haltedState)) (· == haltedState) = true ∧
      answers (step (offerRead 0x04#6 haltedState)) (·.reads == [0x319#32]) = true := by
  decide +kernel

theorem test_access_outside_interface :
    refusesWith (step (offer (.access (.read 0x04#6 2)) State.reset)) .accessNotWord = true ∧
      refusesWith (step (offerRead 0x02#6 State.reset)) .accessMisaligned = true := by decide +kernel

theorem test_rst_holds_access_then_resets :
    answers (step { c8k 9#32 with rst := true, inputs := [.access (memRead 0x04#6), .rst false] })
      (fun t => t == { State.reset with inputs := [.access (memRead 0x04#6)] }) = true := by
  decide +kernel

/-! ### Datapath (95_test_vectors.md L2.1 to L2.3; 0x bit patterns of the decimals given there) -/

/-- L2.1: T(1, 697, 8000) = 0.5204881301528917 and T(1, 9000, 8000) = 0.7071067811865479. -/
theorem test_tone :
    tone Config.piConst sinReference 1#32 697#16 8000#32 = 0x3FE0A7D6B91ECFC3#64 ∧
      tone Config.piConst sinReference 1#32 9000#16 8000#32 = 0x3FE6A09E667F3BD0#64 := by
  decide +kernel

/-- L2.1: T(0xFFFFFFFF, 65535, 1) = 0.024200082815665033, the largest phase. -/
theorem test_tone_largest_phase :
    tone Config.piConst sinReference 0xFFFFFFFF#32 65535#16 1#32 = 0x3F98C7E81103DD0C#64 := by
  decide +kernel

/-- L2.2: M(0.3, 0.6) = 0.44999999999999996, and the smallest subnormal. -/
theorem test_mix :
    mix 0x3FD3333333333333#64 0x3FE3333333333333#64 = 0x3FDCCCCCCCCCCCCC#64 ∧
      mix 0x1#64 0x0#64 = 0x0#64 ∧ mix 0x1#64 0x1#64 = 0x1#64 := by decide +kernel

/-- L2.3: 1.0, -1.0, 0.99609375 (a clamped tie), -0.00390625 (a tie) at full scale, and
1.0 at scale code 1. -/
theorem test_quantize :
    quantize 0x3FF0000000000000#64 0x10000#32 = 255#8 ∧ quantize 0xBFF0000000000000#64 0x10000#32 = 0#8 ∧
      quantize 0x3FEFE00000000000#64 0x10000#32 = 255#8 ∧
      quantize 0xBF70000000000000#64 0x10000#32 = 127#8 ∧
      quantize 0x3FF0000000000000#64 1#32 = 128#8 := by decide +kernel

/-- R163: 0.49999999999999994 rounds to 0; 2.5 rounds to 3 and -0.5 to -1. -/
theorem test_round_ha :
    roundHa (F64.units 0x3FDFFFFFFFFFFFFF#64) F64.unitsPerOne = 0 ∧ roundHa 5 2 = 3 ∧
      roundHa (-1) 2 = -1 := by decide +kernel

/-- A sine that differs from the reference at one argument, and a value that no admitted sine has. -/
theorem test_sine_rom :
    sin64 [(0x3FF0000000000000#64, 0x3FE0000000000000#64)] 0x3FF0000000000000#64 = 0x3FE0000000000000#64 ∧
      sin64 [(0x3FF0000000000000#64, 0x4000000000000000#64)] 0x3FF0000000000000#64 =
        sinReference 0x3FF0000000000000#64 := by decide +kernel

/-! ### Host notation (30_encoding.md R109, R110; 95_test_vectors.md L3) -/

theorem test_parse_lines :
    parseLine "wr SAMPLE_RATE, 8000".toList = some (.wr .sampleRate 0x1F40#32) ∧
      parseLine "dual.inc".toList = some (.command (.dual true)) ∧
      parseLine "SRST.inc".toList = none ∧ parseLine "SEEK 0xFFFFFFFE".toList = some (.seek 0xFFFFFFFE#32) := by
  decide +kernel

/-! ### Witnesses: for each statement with hypotheses, states and operands that meet them -/

/-- The state a step answers with, of a step that answers one. -/
def after (s : State) : State :=
  match step s with
  | .next t => t
  | .fault _ => s
  | .refused _ => s

/-- A sine that is 0 everywhere. -/
def zeroSine (_ : F64) : F64 := 0#64

theorem zeroSine_admitted : AdmittedSine zeroSine := ⟨rfl, fun _ _ => by unfold zeroSine; decide +kernel⟩

theorem encode_ne_0x20 : ∀ i : Instr, encode i ≠ 0x20#32 := by
  intro i
  cases i with
  | nop => decide
  | srst => decide
  | dual inc => cases inc <;> decide
  | single inc => cases inc <;> decide
  | saw inc => cases inc <;> decide
  | silence inc => cases inc <;> decide

theorem witness_StepRunsDecodedCommand :
    let s := offerWrite 0x00#6 0x11#32 (c8k 1#32)
    s.rst = false ∧ s.inputs = .access (memWrite 0x00#6 0x11#32) :: [] ∧
      decode 0x11#32 = .ok (.dual true) := by decide

theorem witness_IdleOrHeldBlockStays :
    State.reset.inputs = [] ∧
    (let s := { offerRead 0x04#6 State.reset with rst := true }
     s.rst = true ∧ ∀ x ∈ s.inputs, ∃ a, x = .access a) :=
  ⟨rfl, rfl, fun x hx => ⟨memRead 0x04#6, by simpa [offerRead, offer] using hx⟩⟩

theorem witness_RstReleaseResets :
    (let s := { State.reset with rst := true, inputs := [.access (memRead 0x04#6), .rst false] }
     s.rst = true ∧ s.inputs = [memRead 0x04#6].map .access ++ .rst false :: []) ∧
    (let s := offer (.rst true) State.reset
     s.rst = false ∧ s.inputs = .rst true :: []) := by decide

theorem witness_RegisterWritesKeepLegalValue :
    (c8k 0#32).rst = false ∧ (c8k 0#32).halted = false ∧
    (∀ a ∈ [0x0C#6, 0x10#6, 0x14#6, 0x18#6, 0x1C#6, 0x00#6],
      (offerWrite a 0x10001#32 (c8k 0#32)).inputs = .access (memWrite a 0x10001#32) :: []) ∧
    encode (.dual true) = 0x11#32 ∧ (∀ i, encode i ≠ 0x20#32) :=
  ⟨rfl, rfl, fun _ _ => rfl, rfl, encode_ne_0x20⟩

theorem witness_UnmappedAndReadOnlyOffsets :
    State.reset.rst = false ∧
    (offerRead 0x3C#6 State.reset).inputs = .access (memRead 0x3C#6) :: [] ∧
    (offerWrite 0x28#6 7#32 State.reset).inputs = .access (memWrite 0x28#6 7#32) :: [] ∧
    (offerWrite 0x24#6 9#32 State.reset).inputs = .access (memWrite 0x24#6 9#32) :: [] := by decide

theorem witness_ReadsReturnRegisters :
    let s := offerRead 0x24#6 (c8k 0#32)
    s.rst = false ∧ s.inputs = .access (memRead 0x24#6) :: [] := by decide

theorem witness_AccessOutsideInterfaceRefused :
    (offer (.access (.read 0x04#6 2)) State.reset).inputs = .access (.read 0x04#6 2) :: [] ∧
    (offerRead 0x02#6 State.reset).inputs = .access (.read 0x02#6 4) :: [] ∧
    (0x02#6).toNat % 4 ≠ 0 ∧ [0#8].length ≠ 4 ∧
    (offer (.access (.write 0x04#6 [0#8])) State.reset).inputs = .access (.write 0x04#6 [0#8]) :: [] := by
  decide

theorem witness_AccessesCompleteWithoutFault :
    (memRead 0x3C#6).wellFormed = true ∧ (memWrite 0x00#6 0x20#32).wellFormed = true ∧
    (offerRead 0x3C#6 State.reset).inputs = .access (memRead 0x3C#6) :: [] ∧
    ∀ w, memRead 0x3C#6 ≠ memWrite 0x00#6 w :=
  ⟨by decide, by decide, rfl, fun _ h => by cases h⟩

/-- For SAW, SILENCE, fault entry, and the statements on a block that is not halted. -/
theorem witness_running : State.reset.halted = false ∧ (c8k 0xFFFFFFFF#32).halted = false := by decide

/-- For DUAL's and SINGLE's completion, and the symmetry, silence and REAL statements. -/
theorem witness_ready : DualReady (c8k 1#32) ∧ SingleReady { c8k 1#32 with freqB := 0#16 } := by decide

theorem witness_FaultEntryRecordsCauses :
    [Cause.pair, Cause.zeroFreq] ≠ [] ∧ State.reset.halted = false := by decide

theorem witness_SimultaneousCausesRecorded :
    (let s := { c8k 0#32 with freqB := 0#16 }
     s.halted = false ∧ (s.sampleRate = 0#32 ∨ s.freqA = 0#16 ∨ s.freqB = 0#16)) ∧
    (State.reset.halted = false ∧ (State.reset.sampleRate = 0#32 ∨ State.reset.freqA = 0#16)) ∧
    (let s := offerWrite 0x00#6 0x20#32 (c8k 0#32)
     s.halted = false ∧ s.rst = false ∧ s.inputs = .access (memWrite 0x00#6 0x20#32) :: []) ∧
    ∀ i, encode i ≠ 0x20#32 :=
  ⟨by decide, by decide, by decide, encode_ne_0x20⟩

theorem witness_FaultsArePrecise :
    let s := offerWrite 0x00#6 0x01#32 { c8k 0#32 with freqB := 0#16 }
    step s = .next (after s) ∧ s.halted = false ∧ (after s).halted = true :=
  ⟨rfl, rfl, rfl⟩

theorem witness_HaltedIgnoresWrites :
    haltedState.halted = true ∧ haltedState.rst = false ∧ (0x3C#6).toNat % 4 = 0 ∧
    (offerWrite 0x00#6 0x1F#32 haltedState).inputs = .access (memWrite 0x00#6 0x1F#32) :: [] ∧
    ¬(0x00#6 = 0x00#6 ∧ 0x1F#32 = 0x0F#32) ∧
    (offerWrite 0x00#6 0x0F#32 haltedState).inputs = .access (memWrite 0x00#6 0x0F#32) :: [] ∧
    (offerRead 0x3C#6 haltedState).inputs = .access (memRead 0x3C#6) :: [] := by decide

theorem witness_HaltEndsOnlyByReset :
    (let s := offerWrite 0x00#6 0x11#32 haltedState
     step s = .next (after s) ∧ s.halted = true ∧ (after s).halted = true) ∧
    (let s := offerWrite 0x00#6 0x0F#32 haltedState
     step s = .next (after s) ∧ s.halted = true ∧ (after s).halted = false) :=
  ⟨⟨rfl, rfl, rfl⟩, rfl, rfl, rfl⟩

/-- For the statements about any step: a sample, a read, a reset. -/
theorem witness_OutputStreamAppendOnly :
    (let s := offerWrite 0x00#6 0x03#32 State.reset
     step s = .next (after s) ∧ (after s).out = [0#8]) ∧
    (let s := offerRead 0x24#6 State.reset
     step s = .next (after s) ∧ (after s).out = []) ∧
    (let s := offerWrite 0x00#6 0x0F#32 State.reset
     step s = .next (after s) ∧ (after s).out = []) :=
  ⟨⟨rfl, rfl⟩, ⟨rfl, rfl⟩, rfl, rfl⟩

theorem witness_IndexChangesOnlyAsStated :
    (let s := offerWrite 0x00#6 0x13#32 (c8k 0xFFFFFFFF#32)
     step s = .next (after s) ∧ (after s).index ≠ s.index) ∧
    (let s := offerWrite 0x1C#6 7#32 (c8k 0#32)
     step s = .next (after s) ∧ (after s).index ≠ s.index) ∧
    (let s := offerWrite 0x00#6 0x0F#32 (c8k 9#32)
     step s = .next (after s) ∧ (after s).index ≠ s.index) :=
  ⟨⟨rfl, by decide +kernel⟩, ⟨rfl, by decide +kernel⟩, rfl, by decide +kernel⟩

theorem witness_EveryStepKeepsInvariant :
    (let s := offerWrite 0x00#6 0x01#32 State.reset
     BlockInv s ∧ step s = .next (after s)) ∧ BlockInv haltedState := by
  refine ⟨⟨?_, rfl⟩, ?_⟩ <;> unfold BlockInv ScaleLegal RecordTrue LastSampleShown <;> decide +kernel

theorem witness_SineNeverChanges :
    let s := offerWrite 0x00#6 0x0F#32 { State.reset with sineRom := [(1#64, 0#64)] }
    step s = .next (after s) ∧ (after s).sineRom = [(1#64, 0#64)] := ⟨rfl, rfl⟩

theorem witness_SamplesDependOnOperandsOnly :
    let s := c8k 1#32
    let u := { c8k 1#32 with sampleCount := 5#32, out := [7#8], sampleOut := 7#8 }
    s.sineRom = u.sineRom ∧ s.index = u.index ∧ DualReady s ∧ DualReady u ∧ SingleReady s ∧
      SingleReady u ∧ s.sampleRate = u.sampleRate ∧ s.freqA = u.freqA ∧ s.freqB = u.freqB ∧
      s.ampScale = u.ampScale ∧
      (∃ s', exec (.dual true) s = .next s') ∧ (∃ u', exec (.dual false) u = .next u') ∧
      (∃ s', exec (.single true) s = .next s') ∧ (∃ u', exec (.single false) u = .next u') ∧
      (∃ s', exec (.saw true) s = .next s') ∧ (∃ u', exec (.saw false) u = .next u') :=
  ⟨rfl, rfl, by decide, by decide, by decide, by decide, rfl, rfl, rfl, rfl, ⟨_, rfl⟩, ⟨_, rfl⟩,
    ⟨_, rfl⟩, ⟨_, rfl⟩, ⟨_, rfl⟩, ⟨_, rfl⟩⟩

theorem witness_RoundingIsNearestEven :
    (0 < 3 ∧ 5 < F64.infMag ∧ F64.roundMag 10 3 < F64.infMag) ∧
    (0 < 2 ∧ 4 < F64.infMag ∧ F64.roundMag 7 2 < F64.infMag ∧ 3 ≠ F64.roundMag 7 2 ∧
      |(F64.magUnits (F64.roundMag 7 2) * (2 : Nat) : Int) - (7 : Nat)| =
        |(F64.magUnits 3 * (2 : Nat) : Int) - (7 : Nat)|) := by decide +kernel

theorem witness_IntegerConversionExact : 2 ^ 53 - 1 < 2 ^ 53 ∧ 0 < 2 ^ 53 := by decide

theorem witness_EveryAdmittedSineIsCovered :
    AdmittedSine zeroSine ∧ ∀ x ∈ [0x3FF0000000000000#64, 0#64], F64.isFinite x := by
  refine ⟨zeroSine_admitted, fun x hx => ?_⟩
  rcases List.mem_pair.1 hx with rfl | rfl <;> decide

/-- For the statements about phases and tones, at the ends of the operands' ranges. -/
theorem witness_PhaseStaysInRange : 0xFFFF#16 ≠ 0#16 ∧ 1#32 ≠ 0#32 ∧ 1#16 ≠ 0#16 ∧
    0xFFFFFFFF#32 ≠ 0#32 := by decide

theorem witness_ToneStaysInUnitRange :
    AdmittedSine zeroSine ∧ 0xFFFF#16 ≠ 0#16 ∧ 1#32 ≠ 0#32 :=
  ⟨zeroSine_admitted, by decide, by decide⟩

theorem witness_QuarterPhaseValues :
    (2000#16 ≠ 0#16 ∧ (8000#32).toNat = 4 * (2000#16).toNat) ∧
    (0xFFFF#16 ≠ 0#16 ∧ (0x3FFFC#32).toNat = 4 * (0xFFFF#16).toNat) := by decide

/-- For the statements about signals in [-1, 1]: both ends, a negative zero and the largest finite. -/
theorem witness_unit_signals :
    F64.inUnit 0x3FF0000000000000#64 = true ∧ F64.inUnit 0xBFF0000000000000#64 = true ∧
      F64.inUnit 0x8000000000000000#64 = true ∧ F64.isFinite 0x7FEFFFFFFFFFFFFF#64 = true ∧
      (-1 : ℝ) ≤ 1 ∧ (1 : ℝ) ≤ 1 := by
  refine ⟨by decide, by decide, by decide, by decide, ?_, ?_⟩ <;> norm_num

theorem witness_DualSymmetryAndSingle :
    let s := { c8k 1#32 with freqB := 697#16 }
    DualReady s ∧ s.freqA = s.freqB := by decide

theorem witness_ZeroPhaseOrScaleEmitsSilence :
    (DualReady (c8k 0#32) ∧ SingleReady (c8k 0#32) ∧ (c8k 0#32).index = 0#32) ∧
    (let s := { c8k 1#32 with ampScale := 0#32 }
     DualReady s ∧ SingleReady s ∧ s.ampScale = 0#32) := by decide

theorem witness_RoundHalfAwayFromZero :
    0 < 2 ∧ 2 * |(-1 : Int) - (2 : Nat) * roundHa (-1) 2| = (2 : Nat) := by decide

theorem witness_SilenceQuantizesTo128 :
    2 * |F64.units (scaledSignal 0x3F6FF2E48E8A71DE#64 0x10000#32)| < F64.unitsPerOne := by
  decide +kernel

theorem witness_ClampActsOnlyAtTop :
    F64.inUnit 0x3FEFE00000000000#64 = true ∧ (0x10000#32 : Word) ≤ 0x10000#32 ∧
      255 * (F64.unitsPerOne : Int) ≤ 2 * F64.units (scaledSignal 0x3FEFE00000000000#64 0x10000#32) ∧
      ¬ 253 * (F64.unitsPerOne : Int) ≤ 2 * F64.units (scaledSignal 0x3FEF800000000000#64 0x10000#32) := by
  decide +kernel

theorem witness_QuantizerIsMonotone :
    F64.inUnit 0xBFF0000000000000#64 = true ∧ F64.inUnit 0x3FF0000000000000#64 = true ∧
      (0x10000#32 : Word) ≤ 0x10000#32 ∧
      F64.units 0xBFF0000000000000#64 ≤ F64.units 0x3FF0000000000000#64 ∧ (0#32 : Word) = 0#32 := by
  decide +kernel

theorem witness_RealToneAliases :
    (9000#16 ≠ 0#16 ∧ 8000#32 ≠ 0#32 ∧ 1000#16 ≠ 0#16 ∧ (1000#16).toNat = (9000#16).toNat % (8000#32).toNat) ∧
    (0#32).toNat % ((8000#32).toNat / Nat.gcd (697#16).toNat (8000#32).toNat) =
      (8000#32).toNat % ((8000#32).toNat / Nat.gcd (697#16).toNat (8000#32).toNat) ∧
    2 * (4000#16).toNat = (8000#32).toNat ∧ (8000#16).toNat = (8000#32).toNat := by decide

theorem witness_RealStepRunsRealCommands :
    (let s := offerWrite 0x00#6 0x02#32 (c8k 1#32)
     s.rst = false ∧ s.inputs = .access (memWrite 0x00#6 0x02#32) :: [] ∧
       decode 0x02#32 = .ok (.single false) ∧ BlockInv s ∧ ∃ t, stepReal s = .next t) ∧
    (let s := offerRead 0x24#6 (c8k 1#32)
     ∀ (inc : Bool) (rest : List Input), s.rst = false →
        s.inputs ≠ .access (memWrite 0x00#6 (encode (.dual inc))) :: rest ∧
        s.inputs ≠ .access (memWrite 0x00#6 (encode (.single inc))) :: rest) := by
  refine ⟨⟨rfl, rfl, by decide, ?_, _, rfl⟩, fun inc rest _ => ?_⟩
  · unfold BlockInv ScaleLegal RecordTrue LastSampleShown; decide +kernel
  · simp [offerRead, offer, memRead, memWrite]

/-- The operations of the largest finite value, and the division by the least. -/
theorem witness_OperationsRoundTheExactResult :
    let x := F64.units 0x7FEFFFFFFFFFFFFF#64
    let y := F64.units 0x0000000000000001#64
    F64.isFinite 0x7FEFFFFFFFFFFFFF#64 = true ∧ F64.isFinite 0x0000000000000001#64 = true ∧
      2 * |x + y| < F64.twiceOverflow ∧ 2 * |x * y| < F64.twiceOverflow * F64.unitsPerOne ∧
      x ≠ 0 ∧ 2 * |y| * F64.unitsPerOne < F64.twiceOverflow * |x| := by decide +kernel

/-- Both ends of the signals and of the scales. -/
theorem witness_ScaledSignalRoundsOnce :
    F64.inUnit 0xBFF0000000000000#64 = true ∧ F64.inUnit 0x0000000000000001#64 = true ∧
      (0x10000#32 : Word) ≤ 0x10000#32 ∧ (0#32 : Word) ≤ 0x10000#32 := by decide

end Sys2Proof.Tests
end

/-! # Binary64 (00_scope.md R11)

Rounding to binary64 is rounding to an integer at one exponent step. A magnitude at that step or
above is a whole number of the same grains, and one below it is farther away than the least
significand of the step; so nearest and ties to even carry over from integers to magnitudes, and
from magnitudes to signed values. -/

namespace Sys2Proof.F64

/-! ### Rounding to nearest, ties to even -/

/-- Rounding to an integer moves a value by half a unit at most, and by half a unit only to an even
integer. -/
theorem roundHalfEven_error (n : Nat) {d : Nat} (hd : 0 < d) :
    2 * |(roundHalfEven n d * d : Int) - n| ≤ d ∧
    (2 * |(roundHalfEven n d * d : Int) - n| = d → roundHalfEven n d % 2 = 0) := by
  have hn : (d : Int) * (n / d : Nat) + (n % d : Nat) = n := mod_cast Nat.div_add_mod n d
  have hr : n % d < d := Nat.mod_lt n hd
  have heven : 2 * (n % d) = d → roundHalfEven n d % 2 = 0 := by
    rw [roundHalfEven]; split_ifs <;> omega
  rcases roundHalfEven_cases n d with ⟨hq, hle⟩ | ⟨hq, hle⟩
  · have herr : (roundHalfEven n d * d : Int) - n = -(n % d : Nat) := by rw [hq, ← hn]; ring
    rw [herr, abs_neg, Nat.abs_cast]
    exact ⟨mod_cast hle, fun h => heven (mod_cast h)⟩
  · have herr : (roundHalfEven n d * d : Int) - n = d - (n % d : Nat) := by
      rw [hq, ← hn]; push_cast; ring
    rw [herr, abs_of_nonneg (by omega)]
    exact ⟨by omega, fun h => heven (by omega)⟩

/-- Rounding to an integer gives the nearest one, and of two equally near the even one. -/
theorem roundHalfEven_nearest (n : Nat) {d : Nat} (hd : 0 < d) (j : Int) :
    |(roundHalfEven n d * d : Int) - n| ≤ |j * d - n| ∧
    (j ≠ roundHalfEven n d → |(roundHalfEven n d * d : Int) - n| = |j * d - n| →
      roundHalfEven n d % 2 = 0) := by
  obtain ⟨herr, htie⟩ := roundHalfEven_error n hd
  by_cases hj : j = roundHalfEven n d
  · exact ⟨by rw [hj], fun h => absurd hj h⟩
  have hgap : (d : Int) ≤ |j * d - n| + |(roundHalfEven n d * d : Int) - n| :=
    calc (d : Int) ≤ |j - roundHalfEven n d| * d :=
          le_mul_of_one_le_left (by positivity) (Int.one_le_abs (sub_ne_zero.2 hj))
      _ = |(j * d - n) - (roundHalfEven n d * d - n)| := by
          rw [← Nat.abs_cast d, ← abs_mul, Nat.abs_cast]; ring_nf
      _ ≤ _ := abs_sub _ _
  exact ⟨by omega, fun _ h => htie (by omega)⟩

/-- `roundMag` rounds to an integer number of grains of one exponent step `k`, which the value
reaches. -/
theorem roundMag_step (n d : Nat) : ∃ k,
    roundMag n d = k * 2 ^ 52 + roundHalfEven n (d * 2 ^ k) ∧
    magUnits (roundMag n d) = roundHalfEven n (d * 2 ^ k) * 2 ^ k ∧
    (k = 0 ∨ 2 ^ 52 ≤ n / (d * 2 ^ k)) := by
  obtain ⟨hlt, hge⟩ := roundMag_scale n d
  have hle := le_roundHalfEven n (d * 2 ^ ((n / d).log2 - 52))
  have hup := roundHalfEven_le n (d * 2 ^ ((n / d).log2 - 52))
  exact ⟨_, rfl, magUnits_step _ (hge.imp_right (·.trans hle)) (by omega), hge⟩

/-- At an exponent step `k` that the value reaches, a magnitude is a whole number of grains of the
step, or it is farther below the value than the step's least significand. -/
theorem magUnits_grain_or_far (m : Nat) {n d k : Nat} (hd : 0 < d)
    (hk : k = 0 ∨ 2 ^ 52 ≤ n / (d * 2 ^ k)) :
    (∃ j, magUnits m = j * 2 ^ k) ∨
    (magUnits m * d < 2 ^ 52 * (d * 2 ^ k) ∧ 2 ^ 52 * (d * 2 ^ k) ≤ n) := by
  obtain ⟨k', q, rfl, hk', hq⟩ := exists_step m
  rw [magUnits_step k' hk' hq.le]
  rcases Nat.lt_or_ge k' k with h | h
  · refine .inr ⟨?_, (Nat.le_div_iff_mul_le (by positivity)).1 (hk.resolve_left (by omega))⟩
    calc q * 2 ^ k' * d < 2 ^ 53 * 2 ^ k' * d := by gcongr
      _ = 2 ^ 52 * (d * 2 ^ (k' + 1)) := by ring
      _ ≤ 2 ^ 52 * (d * 2 ^ k) := by gcongr; exacts [by decide, h]
  · exact .inl ⟨q * 2 ^ (k' - k), by rw [Nat.mul_assoc, ← pow_add, Nat.sub_add_cancel h]⟩

/-- Rounding to a magnitude gives the nearest one, whether or not it is finite, and of two equally
near the one with the even significand. -/
theorem roundMag_nearest (n m : Nat) {d : Nat} (hd : 0 < d) :
    |(magUnits (roundMag n d) * d : Int) - n| ≤ |(magUnits m * d : Int) - n| ∧
    (m ≠ roundMag n d →
      |(magUnits (roundMag n d) * d : Int) - n| = |(magUnits m * d : Int) - n| →
      roundMag n d % 2 = 0) := by
  obtain ⟨k, hround, hunits, hk⟩ := roundMag_step n d
  have hnear := roundHalfEven_nearest n (d := d * 2 ^ k) (by positivity)
  have hgrain (j : Nat) : ((j * 2 ^ k : Nat) * d : Int) = (j : Int) * (d * 2 ^ k : Nat) := by
    push_cast; ring
  rw [hunits, hgrain]
  rcases magUnits_grain_or_far m hd hk with ⟨j, hj⟩ | ⟨hlt, hle⟩
  · rw [hj, hgrain]
    obtain ⟨hmin, htie⟩ := hnear j
    refine ⟨hmin, fun hne heq => ?_⟩
    have hjq : (j : Int) ≠ roundHalfEven n (d * 2 ^ k) := by
      intro h
      exact hne (magUnits_strictMono.injective (by rw [hj, hunits, Int.ofNat_inj.1 h]))
    have := htie hjq heq
    omega
  · have hfar : |((2 ^ 52 : Int) * (d * 2 ^ k : Nat)) - n| < |(magUnits m * d : Int) - n| := by
      have hlt' : (magUnits m * d : Int) < 2 ^ 52 * (d * 2 ^ k : Nat) := mod_cast hlt
      have hle' : (2 ^ 52 * (d * 2 ^ k : Nat) : Int) ≤ n := mod_cast hle
      rw [abs_of_nonpos (by omega), abs_of_nonpos (by omega)]
      omega
    have hmin := (hnear (2 ^ 52)).1.trans_lt hfar
    exact ⟨hmin.le, fun _ heq => absurd heq hmin.ne⟩

/-- Settles O36: `roundMag_nearest`, which needs no bound on the magnitudes. -/
theorem roundingIsNearestEven : Obligations.RoundingIsNearestEven :=
  fun n _ m hd _ _ => roundMag_nearest n m hd

/-! ### Integers below 2^53 -/

/-- A significand of at most 53 bits is exact at every exponent step. -/
theorem exists_magUnits_eq (e : Nat) {q : Nat} (hq : q < 2 ^ 53) :
    ∃ m, magUnits m = q * 2 ^ e ∧ m < (e + 2) * 2 ^ 52 := by
  induction e generalizing q with
  | zero => exact ⟨q, by rw [magUnits_of_lt hq, pow_zero, Nat.mul_one], by omega⟩
  | succ e ih =>
    rcases Nat.lt_or_ge q (2 ^ 52) with h | h
    · obtain ⟨m, hm, hlt⟩ := ih (q := 2 * q) (by omega)
      exact ⟨m, by rw [hm]; ring, hlt.trans_le (Nat.mul_le_mul_right _ (by omega))⟩
    · exact ⟨(e + 1) * 2 ^ 52 + q, magUnits_step _ (.inr h) hq.le, by omega⟩

theorem unitsPerOne_eq : unitsPerOne = 2 ^ 1074 := by unfold unitsPerOne; rfl

/-- Settles O37: the integer is a magnitude's value, which rounding keeps. -/
theorem integerConversionExact : Obligations.IntegerConversionExact := by
  intro n hn
  obtain ⟨m, hm, hlt⟩ := exists_magUnits_eq 1074 hn
  rw [← unitsPerOne_eq] at hm
  have hround : roundMag (n * unitsPerOne) 1 = m := by
    rw [← hm]; simpa using roundMag_magUnits m Nat.one_pos
  have hfin : m < infMag := hlt.trans (by decide)
  rw [ofNat, fl_eq_pack false hround hfin.le, units_pack false (hfin.trans infMag_lt), ← hm]
  rfl

/-! ### Sums, products and quotients -/

/-- What lies below the midpoint of the largest finite value and 2^1024 rounds to a finite value:
otherwise the largest finite value would be nearer. -/
theorem roundMag_lt_infMag {n d : Nat} (hd : 0 < d) (h : 2 * n < twiceOverflow * d) :
    roundMag n d < infMag := by
  by_contra hge
  have hmin := (roundMag_nearest n (infMag - 1) hd).1
  have hinf : (magUnits infMag * d : Int) ≤ magUnits (roundMag n d) * d :=
    mod_cast Nat.mul_le_mul_right d (magUnits_strictMono.monotone (Nat.le_of_not_lt hge))
  have hmax : (magUnits (infMag - 1) * d : Int) < magUnits infMag * d :=
    mod_cast Nat.mul_lt_mul_of_pos_right (magUnits_strictMono (by decide)) hd
  have hmid : (2 * n : Int) < magUnits (infMag - 1) * d + magUnits infMag * d := by
    rw [twiceOverflow_eq, Nat.add_mul] at h; exact mod_cast h
  refine hmin.not_gt ((abs_lt.2 ⟨?_, ?_⟩).trans_le (le_abs_self _)) <;> linarith

/-- The nearest magnitude is also nearer than every value of the other sign. -/
theorem roundMag_nearest_signed (n : Nat) {d : Nat} (hd : 0 < d) {m : Nat} {z : Int}
    (hz : z = magUnits m ∨ z = -magUnits m) :
    |(magUnits (roundMag n d) * d : Int) - n| ≤ |z * d - n| ∧
    (z ≠ magUnits (roundMag n d) →
      |(magUnits (roundMag n d) * d : Int) - n| = |z * d - n| → roundMag n d % 2 = 0) := by
  have same (m : Nat) := roundMag_nearest n m hd
  have ne_of {m : Nat} (h : (magUnits m : Int) ≠ magUnits (roundMag n d)) : m ≠ roundMag n d :=
    fun e => h (by rw [e])
  rcases hz with rfl | rfl
  · exact ⟨(same m).1, fun hne => (same m).2 (ne_of hne)⟩
  · obtain ⟨hmin, htie⟩ := same 0
    rw [magUnits_zero, Nat.cast_zero, zero_mul, zero_sub, abs_neg, Nat.abs_cast] at hmin htie
    have hpos : (0 : Int) ≤ magUnits m * d := by positivity
    have hopp : |-(magUnits m : Int) * d - n| = magUnits m * d + n := by
      rw [neg_mul, ← neg_add', abs_neg, abs_of_nonneg (by positivity)]
    rw [hopp]
    refine ⟨by linarith, fun hne heq => ?_⟩
    have h0 : (magUnits m : Int) = 0 := by
      have : (magUnits m * d : Int) = 0 := by linarith
      exact (mul_eq_zero.1 this).resolve_right (by positivity)
    rw [h0, neg_zero] at hne
    exact htie (ne_of (by rwa [magUnits_zero])) (by rw [heq, h0]; ring)

/-- A value of a sign and a magnitude. -/
def signed (neg : Bool) (n : Nat) : Int := if neg then -n else n

theorem units_eq_signed (x : F64) : units x = signed (isNeg x) (magUnits (mag x)) := rfl

theorem units_eq_or (x : F64) : units x = magUnits (mag x) ∨ units x = -magUnits (mag x) := by
  rw [units]; split
  · exact .inr rfl
  · exact .inl rfl

/-- `fl` gives the binary64 value nearest the exact one, ties to even, wherever the exact one lies
below the midpoint of the largest finite value and 2^1024. -/
theorem nearestEven_fl (neg : Bool) {n d : Nat} (hd : 0 < d) (h : 2 * n < twiceOverflow * d) :
    NearestEven (fl neg n d) (signed neg n) d := by
  have hfin := roundMag_lt_infMag hd h
  have hmag : mag (fl neg n d) = roundMag n d := by rw [mag_fl, Nat.min_eq_left hfin.le]
  refine ⟨by rw [isFinite, hmag]; exact decide_eq_true hfin, fun y _ => ?_⟩
  rw [units_eq_signed (fl neg n d), isNeg_fl, hmag]
  cases neg
  · exact roundMag_nearest_signed n hd (units_eq_or y)
  · obtain ⟨z, hz⟩ : ∃ z, units y = -z := ⟨-units y, (neg_neg _).symm⟩
    have hmirror (v w : Int) : |-v * d - -w| = |v * d - w| := by rw [← abs_neg]; ring_nf
    simp only [signed, if_true, hz, hmirror, ne_eq, neg_inj]
    exact roundMag_nearest_signed n hd (m := mag y) (by have := units_eq_or y; omega)

theorem signed_natAbs (z : Int) : signed (decide (z < 0)) z.natAbs = z := by
  by_cases h : z < 0
  · simp only [signed, h, decide_true, if_true]; omega
  · simp only [signed, h, decide_false, Bool.false_eq_true, if_false]; omega

theorem signed_mul (a b : Bool) (m n : Nat) :
    signed (a != b) (m * n) = signed a m * signed b n := by
  cases a <;> cases b <;> simp [signed]

theorem sign_signed (b : Bool) {n : Nat} (h : 0 < n) : (signed b n).sign = signed b 1 := by
  cases b
  · exact Int.sign_eq_one_of_pos (by simpa [signed] using h)
  · exact Int.sign_eq_neg_one_of_neg (by simpa [signed] using h)

theorem abs_units (x : F64) : |units x| = magUnits (mag x) := by
  rw [Int.abs_eq_natAbs, natAbs_units]

theorem nearestEven_add {a b : F64} (ha : isFinite a = true) (hb : isFinite b = true)
    (h : 2 * |units a + units b| < twiceOverflow) :
    NearestEven (add a b) (units a + units b) 1 := by
  have hlt : 2 * (units a + units b).natAbs < twiceOverflow * 1 := by
    rw [Int.abs_eq_natAbs] at h; rw [Nat.mul_one]; exact mod_cast h
  rw [add_of_finite ha hb]
  split
  · rename_i h0
    rw [h0] at hlt ⊢
    rw [← fl_eq_pack _ (roundMag_zero 1) (Nat.zero_le _)]
    simpa [signed] using nearestEven_fl (isNeg a && isNeg b) Nat.one_pos hlt
  · simpa only [signed_natAbs] using nearestEven_fl (decide (units a + units b < 0)) Nat.one_pos hlt

theorem nearestEven_mul {a b : F64} (ha : isFinite a = true) (hb : isFinite b = true)
    (h : 2 * |units a * units b| < twiceOverflow * unitsPerOne) :
    NearestEven (mul a b) (units a * units b) unitsPerOne := by
  rw [abs_mul, abs_units, abs_units] at h
  rw [mul_of_finite ha hb, units_eq_signed a, units_eq_signed b, ← signed_mul]
  exact nearestEven_fl _ unitsPerOne_pos (mod_cast h)

theorem nearestEven_div {a b : F64} (ha : isFinite a = true) (hb : isFinite b = true)
    (h0 : units b ≠ 0) (h : 2 * |units a| * unitsPerOne < twiceOverflow * |units b|) :
    NearestEven (div a b) ((units b).sign * units a * unitsPerOne) (units b).natAbs := by
  have hpos : 0 < magUnits (mag b) := by rw [← natAbs_units]; exact Int.natAbs_pos.2 h0
  have hz : isZero b = false := by
    refine beq_eq_false_iff_ne.2 fun hm => ?_
    rw [hm, magUnits_zero] at hpos
    exact hpos.false
  have hval : (units b).sign * units a * unitsPerOne =
      signed (isNeg a != isNeg b) (magUnits (mag a) * unitsPerOne) := by
    rw [units_eq_signed a, units_eq_signed b, sign_signed _ hpos, mul_comm (signed _ 1),
      ← signed_mul, Nat.mul_one]
    cases isNeg a != isNeg b <;> simp [signed]
  rw [abs_units, abs_units] at h
  rw [div_of_finite ha hb hz, natAbs_units, hval]
  exact nearestEven_fl _ hpos (by rw [← Nat.mul_assoc]; exact mod_cast h)

/-- Settles O58: each operation is `fl` of its exact result. -/
theorem operationsRoundTheExactResult : Obligations.OperationsRoundTheExactResult :=
  fun _ _ ha hb => ⟨nearestEven_add ha hb, nearestEven_mul ha hb, nearestEven_div ha hb⟩

end Sys2Proof.F64

/-! # The REAL machine beside the REF64 machine (00_scope.md R8; log entry 5)

Both machines are `takeInput` of a meaning of commands, so what holds of every step is said once for
any meaning, and the machines are compared command by command. -/

namespace Sys2Proof.Machine

/-! ### Commands -/

/-- Only DUAL and SINGLE use the datapath. -/
theorem execReal_eq_exec {i : Instr} (hdual : ∀ inc, i ≠ .dual inc) (hsingle : ∀ inc, i ≠ .single inc)
    (s : State) : execReal i s = exec i s := by
  cases i with
  | dual inc => exact absurd rfl (hdual inc)
  | single inc => exact absurd rfl (hsingle inc)
  | nop | saw | silence | srst => rfl

/-- Settles O56: on both machines DUAL, and SINGLE, is one sample command, with two samples. -/
theorem realMachineDiffersInSampleOnly : Obligations.RealMachineDiffersInSampleOnly := by
  intro i s
  cases i with
  | dual inc =>
    refine ⟨_, _, rfl, rfl, ?_, by rintro _ ⟨⟩, fun h => ?_⟩
    · rintro _ - ⟨hrun, hset⟩
      exact unlessHalted_sampleCommand_sample hrun ((dualCauses_eq_nil s).2 hset) _ _ _ _
    · refine unlessHalted_sampleCommand_fault (fun ⟨hrun, hpass⟩ => ?_) _ _ _ _
      exact (h inc).1 ⟨rfl, hrun, (dualCauses_eq_nil s).1 hpass⟩
  | single inc =>
    refine ⟨_, _, rfl, rfl, by rintro _ ⟨⟩, ?_, fun h => ?_⟩
    · rintro _ - ⟨hrun, hset⟩
      exact unlessHalted_sampleCommand_sample hrun ((singleCauses_eq_nil s).2 hset) _ _ _ _
    · refine unlessHalted_sampleCommand_fault (fun ⟨hrun, hpass⟩ => ?_) _ _ _ _
      exact (h inc).2 ⟨rfl, hrun, (singleCauses_eq_nil s).1 hpass⟩
  | nop | saw | silence | srst =>
    exact ⟨_, _, rfl, rfl, by rintro _ ⟨⟩, by rintro _ ⟨⟩, fun _ => rfl⟩

/-! ### The command a word stands for (30_encoding.md R105) -/

theorem decode_encode (i : Instr) : decode (encode i) = .ok i := by
  cases i with
  | nop | srst => rfl
  | dual inc | single inc | saw inc | silence inc => cases inc <;> rfl

/-- A word whose RSVD field is 0 is its INC bit and its OP field. -/
theorem word_of_rsvd_zero {w : Word} (h : w.extractLsb' 5 27 = 0#27) :
    w = 0#27 ++ BitVec.ofBool (w.getLsbD 4) ++ w.extractLsb' 0 4 := by
  rw [← h]
  apply BitVec.eq_of_getLsbD_eq
  intro j hj
  simp only [BitVec.getLsbD_append, BitVec.getLsbD_extractLsb', BitVec.getLsbD_ofBool]
  by_cases h1 : j < 4
  · simp [h1]
  by_cases h2 : j = 4
  · simp [h2]
  · simp [h1, show ¬ j - 4 < 1 by omega, show j - 4 - 1 < 27 by omega,
      show 5 + (j - 4 - 1) = j by omega]

theorem withoutInc_ok {inc : Bool} {i j : Instr} (h : withoutInc inc i = .ok j) :
    inc = false ∧ i = j := by
  cases inc with
  | false => exact ⟨rfl, by simpa [withoutInc] using h⟩
  | true => simp [withoutInc] at h

/-- The three fields of a word that decodes. -/
theorem fields_of_decode {w : Word} {i : Instr} (h : decode w = .ok i) :
    w.extractLsb' 5 27 = 0#27 ∧ w.getLsbD 4 = incField i ∧ w.extractLsb' 0 4 = opField i := by
  unfold decode at h
  split_ifs at h with hrsvd
  refine ⟨not_not.1 hrsvd, ?_⟩
  have hop {c : BitVec 4} (hc : (w.extractLsb' 0 4).toNat = c.toNat) : w.extractLsb' 0 4 = c :=
    BitVec.eq_of_toNat_eq hc
  dsimp only at h
  split at h <;> rename_i hc
  case h_1 | h_6 => obtain ⟨hinc, rfl⟩ := withoutInc_ok h; exact ⟨hinc, hop hc⟩
  case h_2 | h_3 | h_4 | h_5 => cases h; exact ⟨rfl, hop hc⟩
  case h_7 => cases h

theorem encode_of_decode {w : Word} {i : Instr} (h : decode w = .ok i) : encode i = w := by
  obtain ⟨hrsvd, hinc, hop⟩ := fields_of_decode h
  rw [word_of_rsvd_zero hrsvd, hinc, hop, encode]

/-! ### The invariant of the block -/

theorem blockInv_resetRegisters (s : State) : BlockInv (resetRegisters s) :=
  ⟨show (0#32 : Word) ≤ Config.scaleOne by decide, ⟨rfl, rfl⟩, .inr ⟨rfl, rfl⟩⟩

theorem recordTrue_of_running {s : State} (h : s.halted = false) :
    RecordTrue s ↔ s.status = Status.clear ∧ s.faultCmd = 0#32 := by
  rw [RecordTrue, if_neg (by simp [h])]

theorem recordTrue_of_halted {s : State} (h : s.halted = true) :
    RecordTrue s ↔ s.status = recordCauses (causesOfWord s.faultCmd s) Status.clear := by
  rw [RecordTrue, if_pos h]

theorem blockInv_unlessHalted {s after : State} (h : BlockInv s)
    (hafter : s.halted = false → BlockInv after) : BlockInv (unlessHalted s after) := by
  cases hh : s.halted
  · simpa [hh] using hafter hh
  · simpa [hh] using h

theorem blockInv_raiseFault {s : State} {codes : List Cause} {w : Word} (h : BlockInv s)
    (hrun : s.halted = false) (hne : codes ≠ []) (hw : causesOfWord w s = codes) :
    BlockInv (raiseFault codes w s) := by
  obtain ⟨hscale, -, hlast⟩ := h
  refine ⟨hscale, (recordTrue_of_halted (raiseFault_halted hne w s)).2 ?_, hlast⟩
  have hcauses : causesOfWord w (raiseFault codes w s) = codes := hw
  rw [raiseFault_status, raiseFault_faultCmd, hcauses, recordCauses_of_running hrun]

theorem blockInv_commit {s : State} (sample : Byte) (inc : Bool) (h : BlockInv s)
    (hrun : s.halted = false) : BlockInv (commit sample inc s) := by
  obtain ⟨hscale, hrec, -⟩ := h
  rw [recordTrue_of_running hrun] at hrec
  exact ⟨hscale, (recordTrue_of_running hrun).2 hrec, .inl List.getLast?_concat⟩

/-- A sample command keeps the invariant whatever its sample, if its checks are those of its word. -/
theorem blockInv_sampleCommand {s : State} {codes : List Cause} {w : Word} (sample : Byte)
    (inc : Bool) (h : BlockInv s) (hw : causesOfWord w s = codes) :
    BlockInv (unlessHalted s (sampleCommand codes sample w inc s)) := by
  refine blockInv_unlessHalted h fun hrun => ?_
  rcases sampleCommand_cases codes sample w inc s with ⟨-, hs⟩ | ⟨hne, hs⟩
  · rw [hs]; exact blockInv_commit sample inc h hrun
  · rw [hs]; exact blockInv_raiseFault h hrun hne hw

theorem blockInv_writeReg {s : State} (o : Offset) (v : Word) (h : BlockInv s)
    (hrun : s.halted = false) : BlockInv (writeReg o v s) := by
  obtain ⟨hscale, hrec, hlast⟩ := h
  rw [recordTrue_of_running hrun] at hrec
  refine ⟨?_, (recordTrue_of_running (by simpa)).2 (by simpa), by simpa [LastSampleShown]⟩
  rw [ScaleLegal, writeReg]
  split
  case h_2 =>
    dsimp only; split
    · assumption
    · exact BitVec.le_refl _
  all_goals exact hscale

theorem blockInv_driveRst {s : State} (level : Bool) (h : BlockInv s) :
    BlockInv (driveRst level s) := by
  unfold driveRst
  split_ifs
  · exact h
  · exact blockInv_resetRegisters _
  · exact h

/-- If every command keeps the invariant, so does every step. -/
theorem blockInv_takeInput {meaning : Instr → State → Host.Outcome State Fault Refusal} {s t : State}
    (hmeaning : ∀ i s t, BlockInv s → meaning i s = .next t → BlockInv t) (h : BlockInv s)
    (ht : takeInput meaning s = .next t) : BlockInv t := by
  have hin (rest : List Input) : BlockInv (withInputs rest s) := h
  rcases takeInput_cases ht with ⟨-, rfl⟩ | ⟨o, rest, -, -, rfl⟩ | ⟨o, v, rest, -, -, -, rfl⟩ |
    ⟨w, i, rest, -, -, -, hw⟩ | ⟨w, e, rest, -, -, hw, rfl⟩ | ⟨level, rest, -, rfl⟩
  · exact h
  · exact hin rest
  · exact blockInv_unlessHalted (hin rest) (blockInv_writeReg o v (hin rest))
  · exact hmeaning i _ t (hin rest) hw
  · exact blockInv_unlessHalted (hin rest) fun hrun =>
      blockInv_raiseFault (hin rest) hrun (List.cons_ne_nil _ _) (by rw [causesOfWord, hw])
  · exact blockInv_driveRst level (hin rest)

theorem blockInv_execReal (i : Instr) (s t : State) (h : BlockInv s) (ht : execReal i s = .next t) :
    BlockInv t := by
  cases i with
  | nop => cases ht; exact h
  | srst => cases ht; exact blockInv_resetRegisters s
  | dual inc | single inc | saw inc | silence inc =>
    cases ht; exact blockInv_sampleCommand _ inc h (by rw [causesOfWord, decode_encode])

/-! ### Steps of the two machines -/

section
variable {meaning meaning' : Instr → State → Host.Outcome State Fault Refusal} {s : State}

theorem performWrite_cmd (w : Word) :
    performWrite meaning 0x00#6 w s = runCommand meaning w s := rfl

theorem runCommand_of_decode {w : Word} {i : Instr} (h : decode w = .ok i) :
    runCommand meaning w s = meaning i s := by rw [runCommand, h]

/-- A step that takes a command word runs the command (10_state.md R32). -/
theorem takeInput_command {w : Word} {i : Instr} {rest : List Input} (hr : s.rst = false)
    (hi : s.inputs = .access (memWrite 0x00#6 w) :: rest) (hd : decode w = .ok i) :
    takeInput meaning s = meaning i (withInputs rest s) := by
  rw [takeInput_write hr hi rfl, performWrite_cmd, runCommand_of_decode hd]

/-- An access depends on the meaning of the one command it writes. -/
theorem performAccess_congr {a : Access}
    (h : ∀ i, a = memWrite 0x00#6 (encode i) → meaning i s = meaning' i s) :
    performAccess meaning a s = performAccess meaning' a s := by
  unfold performAccess
  split_ifs
  · rfl
  · rfl
  cases a with
  | read o n => rfl
  | write o lanes =>
    dsimp only
    split
    · rename_i w hw
      rw [performWrite, performWrite]
      split_ifs with ho
      · rw [runCommand, runCommand]
        split
        · rename_i i hd
          exact h i (by rw [ho, encode_of_decode hd, lanes_of_wordOfLanes hw]; rfl)
        · rfl
      · rfl
    · rfl

/-- A step depends on the meaning of the one command it takes. -/
theorem takeInput_congr (h : ∀ i rest, s.rst = false →
      s.inputs = .access (memWrite 0x00#6 (encode i)) :: rest →
      meaning i (withInputs rest s) = meaning' i (withInputs rest s)) :
    takeInput meaning s = takeInput meaning' s := by
  rw [takeInput, takeInput]
  split
  · rfl
  · rename_i a rest hn
    obtain ⟨hr, hi⟩ := nextInput_access hn
    exact performAccess_congr fun i ha => h i rest hr (ha ▸ hi)
  · rfl

end

/-- Settles O60: `stepReal` is `takeInput` of `execReal`, which differs from `exec` in two commands
alone. -/
theorem realStepRunsRealCommands : Obligations.RealStepRunsRealCommands := by
  refine fun s => ⟨fun w i rest => takeInput_command, fun h => ?_,
    fun t => blockInv_takeInput blockInv_execReal⟩
  refine takeInput_congr fun i rest hr hi => execReal_eq_exec ?_ ?_ _
  · rintro inc rfl; exact (h inc rest hr).1 hi
  · rintro inc rfl; exact (h inc rest hr).2 hi

end Sys2Proof.Machine

/-! # What every step keeps (10_state.md)

Every command is NOP, SRST or a sample command with the checks of its own word; so a step commits a
sample, resets, writes a register, or leaves OUT, its registers, INDEX and the sine as they are. -/

namespace Sys2Proof.Machine

/-! ### STATUS -/

theorem toNat_append_eq_add {m n : Nat} (x : BitVec m) (y : BitVec n) :
    (x ++ y).toNat = x.toNat * 2 ^ n + y.toNat := by
  rw [BitVec.toNat_append, ← Nat.shiftLeft_add_eq_or_of_lt y.isLt, Nat.shiftLeft_eq]

/-- STATUS as a number is the sum of its fields at their places (10_state.md R33). -/
theorem statusWord_toNat (t : Status) :
    (statusWord t).toNat = (if statusHalted t then 1 else 0) + 2 * t.badCmd.toNat +
      4 * t.zeroRate.toNat + 8 * t.pair.toNat + 16 * t.zeroFreq.toNat + 256 * t.faultCode.toNat := by
  have hbit : (if statusHalted t then 1 else 0) = (statusHalted t).toNat := by
    cases statusHalted t <;> rfl
  simp only [statusWord, toNat_append_eq_add, BitVec.toNat_ofBool, BitVec.toNat_ofNat, hbit]
  omega

/-- The places of HALTED and the four fault bits (10_state.md R33). -/
theorem statusWord_bits (t : Status) :
    (statusWord t).getLsbD 0 = statusHalted t ∧ (statusWord t).getLsbD 1 = t.badCmd ∧
    (statusWord t).getLsbD 2 = t.zeroRate ∧ (statusWord t).getLsbD 3 = t.pair ∧
    (statusWord t).getLsbD 4 = t.zeroFreq := by
  simp only [statusWord, BitVec.getLsbD_append]
  simp

/-- Settles O16: HALTED and the `fault` port are both the OR of the fault bits. -/
theorem statusLayoutAndHalted : Obligations.StatusLayoutAndHalted := by
  intro s
  obtain ⟨hhalted, hbad, hrate, hpair, hfreq⟩ := statusWord_bits s.status
  refine ⟨statusWord_toNat s.status, ?_, hhalted.symm⟩
  rw [hbad, hrate, hpair, hfreq]
  rfl

/-! ### A step that takes a command -/

/-- Settles O6: `step` is `takeInput` of `exec`. -/
theorem stepRunsDecodedCommand : Obligations.StepRunsDecodedCommand :=
  fun _ _ _ _ => takeInput_command

/-- Settles O7: the word offered is the command's own, which decodes to it. -/
theorem offeredWordRunsNext : Obligations.OfferedWordRunsNext := by
  intro s i
  have hword : BitVec.ofNat 32 ((encode i).toNat % 2 ^ 32) = encode i := by
    rw [Nat.mod_eq_of_lt (encode i).isLt, BitVec.ofNat_toNat, BitVec.setWidth_eq]
  refine takeInput_command (rest := s.inputs) rfl ?_ (decode_encode i)
  rw [State.withFetchWord, offerWord_inputs, hword]
  rfl

/-! ### Writes -/

theorem regOffset_of_regAt {o : Offset} {r : Reg} (h : regAt o = some r) : o = regOffset r := by
  unfold regAt at h
  split at h <;> cases h <;> exact BitVec.eq_of_toNat_eq ‹_›

theorem unlessHalted_cases (s after : State) :
    unlessHalted s after = s ∨ unlessHalted s after = after := by
  cases hh : s.halted <;> simp [hh]

/-- A register write that changes INDEX is a write to INDEX (20_memory.md R76). -/
theorem writeReg_index (o : Offset) (v : Word) (s : State) :
    (writeReg o v s).index = s.index ∨ o = 0x1C#6 ∧ (writeReg o v s).index = v := by
  unfold writeReg
  split
  case h_5 hreg => exact .inr ⟨regOffset_of_regAt hreg, rfl⟩
  all_goals exact .inl rfl

/-! ### Commands and the invariant -/

/-- What a command can do: nothing, a reset, or what its own checks and some sample make of it. -/
theorem exec_cases {i : Instr} {s t : State} (h : exec i s = .next t) :
    (i = .nop ∧ t = s) ∨ (i = .srst ∧ t = resetRegisters s) ∨
    ∃ sample, t = unlessHalted s
      (sampleCommand (causesOfWord (encode i) s) sample (encode i) (incField i) s) := by
  cases i with
  | nop => cases h; exact .inl ⟨rfl, rfl⟩
  | srst => cases h; exact .inr (.inl ⟨rfl, rfl⟩)
  | dual inc | single inc | saw inc | silence inc =>
    cases h; exact .inr (.inr ⟨_, by rw [causesOfWord, decode_encode]; rfl⟩)

theorem blockInv_exec (i : Instr) (s t : State) (h : BlockInv s) (ht : exec i s = .next t) :
    BlockInv t := by
  rcases exec_cases ht with ⟨-, rfl⟩ | ⟨-, rfl⟩ | ⟨sample, rfl⟩
  · exact h
  · exact blockInv_resetRegisters s
  · exact blockInv_sampleCommand sample _ h rfl

/-- Settles O33: `step` is `takeInput` of `exec`, and every command keeps the invariant. -/
theorem everyStepKeepsInvariant : Obligations.EveryStepKeepsInvariant :=
  fun _ _ => blockInv_takeInput blockInv_exec

/-! ### The stream: OUT, its registers, INDEX and the sine -/

/-- `t` has the sine, INDEX, OUT, SAMPLE_OUT and SAMPLE_COUNT of `s`. -/
def SameStream (s t : State) : Prop :=
  t.sineRom = s.sineRom ∧ t.index = s.index ∧ t.out = s.out ∧ t.sampleOut = s.sampleOut ∧
    t.sampleCount = s.sampleCount

theorem sameStream_refl (s : State) : SameStream s s := ⟨rfl, rfl, rfl, rfl, rfl⟩

/-- A command commits a sample, resets (SRST), or keeps the stream. -/
theorem exec_stream {i : Instr} {s t : State} (h : exec i s = .next t) :
    (∃ sample, t = commit sample (incField i) s) ∨ (i = .srst ∧ t = resetRegisters s) ∨
    SameStream s t := by
  rcases exec_cases h with ⟨-, rfl⟩ | hreset | ⟨sample, rfl⟩
  · exact .inr (.inr (sameStream_refl t))
  · exact .inr (.inl hreset)
  rcases unlessHalted_cases s
    (sampleCommand (causesOfWord (encode i) s) sample (encode i) (incField i) s) with heq | heq <;>
    rw [heq]
  · exact .inr (.inr (sameStream_refl s))
  rcases sampleCommand_cases (causesOfWord (encode i) s) sample (encode i) (incField i) s with
    ⟨-, hs⟩ | ⟨-, hs⟩ <;> rw [hs]
  · exact .inl ⟨sample, rfl⟩
  · exact .inr (.inr ⟨rfl, rfl, rfl, rfl, rfl⟩)

/-- What a step can do to the stream: commit a sample, reset, write a register, or keep it. -/
theorem step_stream {s t : State} (h : step s = .next t) :
    (∃ i rest sample, s.inputs = .access (memWrite 0x00#6 (encode i)) :: rest ∧
      t = commit sample (incField i) (withInputs rest s)) ∨
    ((s.rst = true ∨ ∃ rest, s.inputs = .access (memWrite 0x00#6 (encode .srst)) :: rest) ∧
      ∃ u, SameStream s u ∧ t = resetRegisters u) ∨
    (∃ o v rest, s.inputs = .access (memWrite o v) :: rest ∧
      t = writeReg o v (withInputs rest s)) ∨
    SameStream s t := by
  have hkeep := sameStream_refl s
  rcases takeInput_cases h with ⟨-, rfl⟩ | ⟨o, rest, -, -, rfl⟩ | ⟨o, v, rest, -, hi, -, rfl⟩ |
    ⟨w, i, rest, -, hi, hd, hexec⟩ | ⟨w, e, rest, -, -, -, rfl⟩ | ⟨level, rest, -, rfl⟩
  · exact .inr (.inr (.inr hkeep))
  · exact .inr (.inr (.inr hkeep))
  · rcases unlessHalted_cases (withInputs rest s) (writeReg o v (withInputs rest s)) with hu | hu <;>
      rw [hu]
    · exact .inr (.inr (.inr hkeep))
    · exact .inr (.inr (.inl ⟨o, v, rest, hi, rfl⟩))
  · rw [← encode_of_decode hd] at hi
    rcases exec_stream hexec with ⟨sample, rfl⟩ | ⟨rfl, rfl⟩ | hsame
    · exact .inl ⟨i, rest, sample, hi, rfl⟩
    · exact .inr (.inl ⟨.inr ⟨rest, hi⟩, withInputs rest s, hkeep, rfl⟩)
    · exact .inr (.inr (.inr hsame))
  · rcases unlessHalted_cases (withInputs rest s) (raiseFault [.badCmd] w (withInputs rest s)) with
      hu | hu <;> rw [hu] <;> exact .inr (.inr (.inr hkeep))
  · unfold driveRst
    split_ifs with hlevel hrst
    · exact .inr (.inr (.inr hkeep))
    · exact .inr (.inl ⟨.inl hrst, { withInputs rest s with rst := false }, hkeep, rfl⟩)
    · exact .inr (.inr (.inr hkeep))

/-- Settles O30: a commit appends, a reset keeps OUT, and nothing else touches the three. -/
theorem outputStreamAppendOnly : Obligations.OutputStreamAppendOnly := by
  intro s t h
  rcases step_stream h with ⟨i, rest, sample, -, rfl⟩ | ⟨-, u, ⟨-, -, hout, -, -⟩, rfl⟩ |
    ⟨o, v, rest, -, rfl⟩ | ⟨-, -, hstream⟩
  · exact .inl ⟨sample, rfl, rfl, rfl⟩
  · exact .inr (.inr ⟨hout, rfl, rfl, rfl, rfl⟩)
  · exact .inr (.inl (by simp))
  · exact .inr (.inl hstream)

/-- Settles O31: of the four things a step can do, keeping the stream keeps INDEX. -/
theorem indexChangesOnlyAsStated : Obligations.IndexChangesOnlyAsStated := by
  intro s t h hne
  rcases step_stream h with ⟨i, rest, sample, hi, rfl⟩ | ⟨hcause, u, -, rfl⟩ |
    ⟨o, v, rest, hi, rfl⟩ | ⟨-, hindex, -⟩
  · have hinc : incField i = true := by
      by_contra hinc
      exact hne (by simp [hinc])
    refine .inl ⟨i, rest, hi, hinc, BitVec.eq_of_toNat_eq ?_, rfl⟩
    simp [hinc, BitVec.toNat_add]
  · exact .inr (.inr ⟨rfl, rfl, hcause⟩)
  · rcases writeReg_index o v (withInputs rest s) with hkept | ⟨rfl, hv⟩
    · exact absurd hkept hne
    · exact .inr (.inl ⟨v, rest, hi, hv⟩)
  · exact absurd hindex hne

/-- Settles O34: neither a commit, a reset nor a register write touches the sine. -/
theorem sineNeverChanges : Obligations.SineNeverChanges := by
  intro s t h
  rcases step_stream h with ⟨i, rest, sample, -, rfl⟩ | ⟨-, u, ⟨hsine, -⟩, rfl⟩ |
    ⟨o, v, rest, -, rfl⟩ | ⟨hsine, -⟩
  · rfl
  · exact hsine
  · simp
  · exact hsine

end Sys2Proof.Machine

/-! # The register window (20_memory.md)

An access is refused, or it reads an offset, writes a register or runs a command. Each of these is
said once for a step, and on a halted block once for every command; the obligations then read the
register map. -/

namespace Sys2Proof.Machine

/-! ### Byte lanes and access checks -/

/-- Settles O5: the lanes of a word and the word of four lanes are inverse. -/
theorem wordLanesAreLittleEndian : Obligations.WordLanesAreLittleEndian := by
  refine fun lanes w => ⟨lanes_of_wordOfLanes, ?_⟩
  rintro rfl
  exact wordOfLanes_lanesOf w

section
variable {meaning : Instr → State → Host.Outcome State Fault Refusal} {s : State}

/-- The refusal of 20_memory.md R72, whichever of the two checks fails. -/
theorem performAccess_refused {a : Access} (h : a.width ≠ 4 ∨ a.addr.toNat % 4 ≠ 0) :
    ∃ r, performAccess meaning a s = .refused r := by
  by_cases hw : a.isWord = true
  · have ha : a.isAligned = false := by simp_all [Access.isWord, Access.isAligned]
    exact ⟨.accessMisaligned, by simp [performAccess, hw, ha]⟩
  · exact ⟨.accessNotWord, by simp [performAccess, hw]⟩

/-- A block whose `rst` is not asserted takes the oldest access. -/
theorem takeInput_access {a : Access} {rest : List Input} (hr : s.rst = false)
    (hi : s.inputs = .access a :: rest) :
    takeInput meaning s = performAccess meaning a (withInputs rest s) := by
  rw [takeInput, hr, hi, nextInput_running]

end

/-- Settles O13: what is refused is refused whatever waits behind it. -/
theorem accessOutsideInterfaceRefused : Obligations.AccessOutsideInterfaceRefused := by
  refine fun s a n lanes rest hr => ⟨fun hi h => ?_, fun hi h => ?_⟩
  · rw [step, takeInput_access hr hi]
    exact performAccess_refused h
  · rw [step, takeInput_access hr hi]
    exact performAccess_refused h

/-! ### Reads -/

theorem regOffset_aligned (r : Reg) : (regOffset r).toNat % 4 = 0 := by cases r <;> rfl

/-- Where there is no register, and at CMD, a read returns 0 (20_memory.md R74, R75). -/
theorem readOffset_of_no_value {o : Offset} (h : regAt o ∈ [none, some .cmd]) (s : State) :
    readOffset o s = 0#32 := by
  simp only [List.mem_cons, List.not_mem_nil, or_false] at h
  rcases h with h | h
  · rw [readOffset, h]
  · rw [readOffset, h]; rfl

/-- A step that takes a read appends its word to `reads` and changes nothing else. -/
theorem step_memRead {s : State} {o : Offset} {rest : List Input} (hr : s.rst = false)
    (hi : s.inputs = .access (memRead o) :: rest) (ho : o.toNat % 4 = 0) :
    step s = .next { s with inputs := rest, reads := s.reads ++ [readOffset o s] } :=
  takeInput_read hr hi ho

/-- Settles O12: each pair of the list is the offset of a register and the word it reads as. -/
theorem readsReturnRegisters : Obligations.ReadsReturnRegisters := by
  intro s rest hr p hp hi
  have hreg : ∃ r, p = (regOffset r, readReg s r) := by
    simp only [List.mem_cons, List.not_mem_nil, or_false] at hp
    rcases hp with rfl | rfl | rfl | rfl | rfl | rfl | rfl | rfl | rfl
    · exact ⟨.status, rfl⟩
    · exact ⟨.faultCmd, rfl⟩
    · exact ⟨.sampleRate, rfl⟩
    · exact ⟨.ampScale, rfl⟩
    · exact ⟨.freqA, congrArg _ (BitVec.setWidth_eq_append (by decide)).symm⟩
    · exact ⟨.freqB, congrArg _ (BitVec.setWidth_eq_append (by decide)).symm⟩
    · exact ⟨.index, rfl⟩
    · exact ⟨.sampleOut, congrArg _ (BitVec.setWidth_eq_append (by decide)).symm⟩
    · exact ⟨.sampleCount, rfl⟩
  obtain ⟨r, rfl⟩ := hreg
  rw [step_memRead hr hi (regOffset_aligned r), readOffset_regOffset]

/-! ### Writes -/

/-- A step that takes a write outside CMD writes the register, unless the block is halted. -/
theorem step_memWrite {s : State} {o : Offset} {v : Word} {rest : List Input} (hr : s.rst = false)
    (hi : s.inputs = .access (memWrite o v) :: rest) (ho : o.toNat % 4 = 0) (hne : o ≠ 0x00#6) :
    step s = .next (unlessHalted (withInputs rest s) (writeReg o v (withInputs rest s))) := by
  rw [step, takeInput_write hr hi ho, performWrite, if_neg (show o ≠ regOffset .cmd from hne)]

/-- A step that takes a write outside CMD on a block that is not halted (20_memory.md R76). -/
theorem step_memWrite_running {s : State} {o : Offset} {v : Word} {rest : List Input}
    (hr : s.rst = false) (hh : s.halted = false) (hi : s.inputs = .access (memWrite o v) :: rest)
    (ho : o.toNat % 4 = 0) (hne : o ≠ 0x00#6) :
    step s = .next (writeReg o v (withInputs rest s)) := by
  rw [step_memWrite hr hi ho hne, unlessHalted_of_running ((withInputs_halted rest s).trans hh)]

/-- Where there is no register, and at a read-only one, a write has no effect (20_memory.md R74,
R75). -/
theorem writeReg_of_not_writable {o : Offset}
    (h : regAt o ∈ [none, some .status, some .faultCmd, some .sampleOut, some .sampleCount])
    (v : Word) (s : State) : writeReg o v s = s := by
  simp only [List.mem_cons, List.not_mem_nil, or_false] at h
  rcases h with h | h | h | h | h <;> rw [writeReg, h]

/-- Settles O11: at these offsets the register map gives no value to read or no register to write. -/
theorem unmappedAndReadOnlyOffsets : Obligations.UnmappedAndReadOnlyOffsets := by
  refine fun s a v rest hr => ⟨fun ha hi => ?_, fun ha hi => ?_⟩
  · have hmap : ∀ o ∈ [0x28#6, 0x2C#6, 0x30#6, 0x34#6, 0x38#6, 0x3C#6, 0x00#6],
        o.toNat % 4 = 0 ∧ regAt o ∈ [none, some .cmd] := by decide
    obtain ⟨haligned, hvalue⟩ := hmap a ha
    rw [step_memRead hr hi haligned, readOffset_of_no_value hvalue]
  · have hmap : ∀ o ∈ [0x28#6, 0x2C#6, 0x30#6, 0x34#6, 0x38#6, 0x3C#6, 0x04#6, 0x08#6, 0x20#6, 0x24#6],
        o.toNat % 4 = 0 ∧ o ≠ 0x00#6 ∧
        regAt o ∈ [none, some .status, some .faultCmd, some .sampleOut, some .sampleCount] := by decide
    obtain ⟨haligned, hne, hreg⟩ := hmap a ha
    rw [step_memWrite hr hi haligned hne, writeReg_of_not_writable hreg, unlessHalted, ite_self]
    rfl

/-- AMP_SCALE keeps the smaller of the word and `SCALE_ONE` (10_state.md R38). -/
theorem limited_scale_eq_min (v : Word) :
    (if v ≤ Config.scaleOne then v else Config.scaleOne) = BitVec.ofNat 32 (min v.toNat 0x10000) := by
  split <;> rename_i h
  · have hle : v.toNat ≤ 0x10000 := h
    rw [min_eq_left hle, BitVec.ofNat_toNat, BitVec.setWidth_eq]
  · have hlt : 0x10000 < v.toNat := BitVec.not_le.1 h
    rw [min_eq_right hlt.le]
    rfl

/-- A word that encodes no command is BAD_CMD, unless the block is halted (30_encoding.md R105). -/
theorem runCommand_of_not_command {meaning : Instr → State → Host.Outcome State Fault Refusal}
    {w : Word} (h : ∀ i, encode i ≠ w) (s : State) :
    runCommand meaning w s = .next (unlessHalted s (raiseFault [.badCmd] w s)) := by
  rw [runCommand]
  split
  · exact absurd (encode_of_decode ‹_›) (h _)
  · rfl

/-- Settles O10: each writable register by its row of the map, and CMD by whether the word is a
command. -/
theorem registerWritesKeepLegalValue : Obligations.RegisterWritesKeepLegalValue := by
  intro s v rest hr hh
  refine ⟨fun hi => ?_, fun hi => ?_, fun hi => ?_, fun hi => ?_, fun hi => ?_, fun hi => ⟨?_, ?_⟩⟩
  · exact step_memWrite_running hr hh hi rfl (by decide)
  · rw [← limited_scale_eq_min]
    exact step_memWrite_running hr hh hi rfl (by decide)
  · rw [← BitVec.setWidth_eq_extractLsb' (by decide)]
    exact step_memWrite_running hr hh hi rfl (by decide)
  · rw [← BitVec.setWidth_eq_extractLsb' (by decide)]
    exact step_memWrite_running hr hh hi rfl (by decide)
  · exact step_memWrite_running hr hh hi rfl (by decide)
  · rintro i rfl
    exact takeInput_command hr hi (decode_encode i)
  · intro hne
    rw [step, takeInput_write hr hi rfl, performWrite_cmd, runCommand_of_not_command hne,
      unlessHalted_of_running ((withInputs_halted rest s).trans hh)]
    rfl

/-! ### A halted block -/

/-- On a halted block SRST alone has an effect (60_exceptions.md R239). -/
theorem exec_of_halted {i : Instr} {s : State} (hh : s.halted = true) (hi : i ≠ .srst) :
    exec i s = .next s := by
  cases i with
  | nop => rfl
  | srst => exact absurd rfl hi
  | dual inc | single inc | saw inc | silence inc =>
    exact congrArg Host.Outcome.next (unlessHalted_of_halted hh _)

/-- On a halted block no word written to CMD but SRST's has an effect, legal or not. -/
theorem runCommand_of_halted {w : Word} {s : State} (hh : s.halted = true) (hw : w ≠ encode .srst) :
    runCommand exec w s = .next s := by
  by_cases hcmd : ∃ i, encode i = w
  · obtain ⟨i, rfl⟩ := hcmd
    rw [runCommand_of_decode (decode_encode i)]
    exact exec_of_halted hh fun hi => hw (congrArg encode hi)
  · rw [runCommand_of_not_command (not_exists.1 hcmd), unlessHalted_of_halted hh]

/-- A step of a halted block that takes a write other than SRST's takes it and nothing more. -/
theorem step_memWrite_halted {s : State} {o : Offset} {v : Word} {rest : List Input}
    (hr : s.rst = false) (hh : s.halted = true) (hi : s.inputs = .access (memWrite o v) :: rest)
    (ho : o.toNat % 4 = 0) (hne : ¬(o = 0x00#6 ∧ v = encode .srst)) :
    step s = .next (withInputs rest s) := by
  have hh' : (withInputs rest s).halted = true := (withInputs_halted rest s).trans hh
  by_cases hcmd : o = 0x00#6
  · subst hcmd
    rw [step, takeInput_write hr hi ho, performWrite_cmd]
    exact runCommand_of_halted hh' fun hv => hne ⟨rfl, hv⟩
  · rw [step_memWrite hr hi ho hcmd, unlessHalted_of_halted hh']

/-- The state after a reset: the first state of all, with what a reset keeps
(70_reset_and_hazards.md R271, R272). -/
theorem resetRegisters_eq (s : State) :
    resetRegisters s = { State.reset with
      out := s.out, rst := s.rst, inputs := s.inputs, reads := s.reads, sineRom := s.sineRom } := rfl

/-- Settles O27: SRST's word is the one write a halted block obeys, and no read looks at HALTED. -/
theorem haltedIgnoresWrites : Obligations.HaltedIgnoresWrites := by
  refine fun s a v rest hh hr ha => ⟨fun hi hne => ?_, fun hi => ?_, fun hi => step_memRead hr hi ha⟩
  · exact step_memWrite_halted hr hh hi ha hne
  · have hsrst : step s = .next (resetRegisters (withInputs rest s)) :=
      takeInput_command hr hi (decode_encode .srst)
    rw [hsrst, resetRegisters_eq, withInputs_rst, hr]
    rfl

end Sys2Proof.Machine

/-! # Decoding and encoding (30_encoding.md R100 to R110) -/

namespace Sys2Proof.Machine

/-! ### Commands and their words -/

/-- Settles O2: one direction reads the fields of the word back, the other decodes each command's
word. -/
theorem decodeAndEncodeAgree : Obligations.DecodeAndEncodeAgree :=
  fun _ i => ⟨encode_of_decode, by rintro rfl; exact decode_encode i⟩

/-- The commands, in the order of the opcode map (30_encoding.md R104). -/
def allCommands : List Instr :=
  [.nop, .dual false, .dual true, .single false, .single true, .saw false, .saw true,
    .silence false, .silence true, .srst]

theorem mem_allCommands (i : Instr) : i ∈ allCommands := by
  cases i with
  | nop | srst => decide
  | dual inc | single inc | saw inc | silence inc => cases inc <;> decide

/-- Settles O1: the ten words are the encodings of the commands. -/
theorem exactlyTenWordsAreCommands : Obligations.ExactlyTenWordsAreCommands := by
  intro w
  change _ ↔ w ∈ allCommands.map encode
  simp [decodeAndEncodeAgree w, mem_allCommands]

/-- Settles O3: each word is its command's encoding. -/
theorem opcodeMapWordsDecode : Obligations.OpcodeMapWordsDecode :=
  ⟨decode_encode .nop, decode_encode (.dual true), decode_encode (.single false),
    decode_encode (.saw true), decode_encode (.silence false), decode_encode .srst⟩

/-! ### Illegal words (30_encoding.md R105, R106) -/

theorem rsvd_eq_zero_iff (w : Word) : w.extractLsb' 5 27 = 0#27 ↔ w.toNat < 32 := by
  rw [← BitVec.toNat_inj, BitVec.extractLsb'_toNat, Nat.shiftRight_eq_div_pow]
  have := w.isLt
  simp only [BitVec.toNat_ofNat]
  omega

theorem op_toNat (w : Word) : (w.extractLsb' 0 4).toNat = w.toNat % 16 := by
  rw [BitVec.extractLsb'_toNat, Nat.shiftRight_zero]

theorem inc_eq_true_iff (w : Word) : w.getLsbD 4 = true ↔ w.toNat / 16 % 2 = 1 := by
  rw [BitVec.getLsbD, Nat.testBit_eq_decide_div_mod_eq, decide_eq_true_iff]

/-- A command without an INC bit is rejected only when INC is set (30_encoding.md R106). -/
theorem withoutInc_cases (inc : Bool) (i : Instr) :
    (inc = true ∧ withoutInc inc i = .error .incNotAllowed) ∨ withoutInc inc i = .ok i := by
  cases inc with
  | false => exact .inr rfl
  | true => exact .inl ⟨rfl, rfl⟩

/-- What `decode` answers: RSVD is looked at first, then OP, then INC on NOP and SRST (30_encoding.md
R105, R106). -/
theorem decode_cases (w : Word) :
    (decode w = .error .reservedBits ∧ 32 ≤ w.toNat) ∨
    (decode w = .error .reservedOp ∧ w.toNat < 32 ∧ 5 ≤ w.toNat % 16 ∧ w.toNat % 16 ≤ 14) ∨
    (decode w = .error .incNotAllowed ∧ (w.toNat = 0x10 ∨ w.toNat = 0x1F)) ∨
    ∃ i, decode w = .ok i := by
  have hinc := inc_eq_true_iff w
  rw [decode]
  split_ifs with hrsvd
  · rw [Ne, rsvd_eq_zero_iff, not_lt] at hrsvd
    exact .inl ⟨rfl, hrsvd⟩
  rw [not_not, rsvd_eq_zero_iff] at hrsvd
  refine .inr ?_
  dsimp only
  split
  case h_1 hop | h_6 hop =>
    rw [op_toNat] at hop
    refine .inr ((withoutInc_cases _ _).imp (fun ⟨h, hd⟩ => ⟨hd, ?_⟩) fun hd => ⟨_, hd⟩)
    have := hinc.1 h
    omega
  case h_2 | h_3 | h_4 | h_5 => exact .inr (.inr ⟨_, rfl⟩)
  case h_7 =>
    simp only [op_toNat, imp_false] at *
    exact .inl ⟨trivial, hrsvd, by omega⟩

/-- The word of a command is at none of the places where `decode_cases` rejects. -/
theorem encode_legal (i : Instr) :
    (encode i).toNat < 32 ∧ ((encode i).toNat % 16 < 5 ∨ 14 < (encode i).toNat % 16) ∧
      (encode i).toNat ≠ 0x10 ∧ (encode i).toNat ≠ 0x1F := by
  have hmem := mem_allCommands i
  revert i
  decide

/-- Settles O4: `decode` gives one answer, and the places of its answers exclude each other. -/
theorem illegalWordsRejectedByReason : Obligations.IllegalWordsRejectedByReason := by
  intro w
  simp only [← BitVec.toNat_inj, BitVec.toNat_ofNat]
  rcases decode_cases w with ⟨hd, h⟩ | ⟨hd, h⟩ | ⟨hd, h⟩ | ⟨i, hd⟩
  case inr.inr.inr =>
    have h := encode_legal i
    rw [encode_of_decode hd] at h
    simp only [hd, reduceCtorEq, false_iff, ne_eq, not_false_eq_true, and_true]
    omega
  all_goals
    simp only [hd, reduceCtorEq, Except.error.injEq, true_iff, false_iff, ne_eq, not_false_eq_true,
      and_true]
    omega

/-! ### Pseudo-instructions (30_encoding.md R110) -/

/-- Settles O57: a mnemonic writes its command's word to CMD; TONE and SEEK write their registers. -/
theorem pseudoInstructionsExpand : Obligations.PseudoInstructionsExpand :=
  ⟨rfl, rfl, rfl, rfl, rfl, rfl, rfl, rfl, rfl, rfl, fun _ _ => rfl, fun _ => rfl⟩

end Sys2Proof.Machine

/-! # The oscillator (40_oscillator.md R130 to R140)

Under REF64 the phase is made of rounded quotients of positive values, and a magnitude that bounds an
exact quotient bounds the rounded one; so bounds carry over from `r / f` to the cadence and the phase.
Under REAL the tone is the sine of `f * i / r` turns, so it depends on `f * i` modulo `r` alone. -/

namespace Sys2Proof.F64

/-! ### Magnitudes of quotients and integers -/

theorem isFinite_iff (x : F64) : isFinite x = true ↔ mag x < infMag := decide_eq_true_iff

theorem isFinite_of_mag_le {x y : F64} (h : mag x ≤ mag y) (hy : isFinite y = true) :
    isFinite x = true := by
  rw [isFinite_iff] at *; exact h.trans_lt hy

theorem isZero_of_mag_pos {x : F64} (h : 0 < mag x) : isZero x = false :=
  beq_eq_false_iff_ne.2 h.ne'

theorem units_of_not_neg {x : F64} (h : isNeg x = false) : units x = magUnits (mag x) := by
  simp [units, h]

/-- The magnitude of a quotient rounds the quotient of the magnitudes. -/
theorem mag_div {a b : F64} (ha : isFinite a = true) (hb : isFinite b = true) (h0 : 0 < mag b) :
    mag (div a b) = min (roundMag (magUnits (mag a) * unitsPerOne) (magUnits (mag b))) infMag := by
  rw [div_of_finite ha hb (isZero_of_mag_pos h0), mag_fl]

theorem isNeg_div {a b : F64} (ha : isFinite a = true) (hb : isFinite b = true) (h0 : 0 < mag b) :
    isNeg (div a b) = (isNeg a != isNeg b) := by
  rw [div_of_finite ha hb (isZero_of_mag_pos h0), isNeg_fl]

/-- A magnitude that the exact quotient reaches is reached by the rounded one. -/
theorem le_mag_div {a b : F64} {m : Nat} (ha : isFinite a = true) (hb : isFinite b = true)
    (h0 : 0 < mag b) (hm : m ≤ infMag)
    (h : magUnits m * magUnits (mag b) ≤ magUnits (mag a) * unitsPerOne) : m ≤ mag (div a b) := by
  rw [mag_div ha hb h0]
  exact le_min (le_roundMag (magUnits_pos h0) h) hm

/-- A magnitude that the exact quotient does not exceed is not exceeded by the rounded one. -/
theorem mag_div_le {a b : F64} {m : Nat} (ha : isFinite a = true) (hb : isFinite b = true)
    (h0 : 0 < mag b)
    (h : magUnits (mag a) * unitsPerOne ≤ magUnits m * magUnits (mag b)) : mag (div a b) ≤ m := by
  rw [mag_div ha hb h0]
  exact (min_le_left _ _).trans (roundMag_le (magUnits_pos h0) h)

/-- Dividing by 1 or more does not enlarge a value. -/
theorem mag_div_le_self {a b : F64} (ha : isFinite a = true) (hb : isFinite b = true)
    (h1 : oneMag ≤ mag b) : mag (div a b) ≤ mag a := by
  refine mag_div_le ha hb (lt_of_lt_of_le (by decide) h1) (Nat.mul_le_mul_left _ ?_)
  rw [← magUnits_oneMag]
  exact magUnits_strictMono.monotone h1

theorem isNeg_ofNat (n : Nat) : isNeg (ofNat n) = false := isNeg_fl _ _ _

theorem magUnits_ofNat {n : Nat} (h : n < 2 ^ 53) : magUnits (mag (ofNat n)) = n * unitsPerOne := by
  have := integerConversionExact n h
  rw [units_of_not_neg (isNeg_ofNat n)] at this
  exact_mod_cast this

theorem isFinite_ofNat {n : Nat} (h : n < 2 ^ 53) : isFinite (ofNat n) = true := by
  have hinf : 2 ^ 53 * unitsPerOne ≤ magUnits infMag := by decide +kernel
  rw [isFinite_iff, ← magUnits_strictMono.lt_iff_lt, magUnits_ofNat h]
  exact (Nat.mul_lt_mul_of_pos_right h unitsPerOne_pos).trans_le hinf

theorem oneMag_le_mag_ofNat {n : Nat} (h : n < 2 ^ 53) (h0 : 0 < n) : oneMag ≤ mag (ofNat n) := by
  rw [← magUnits_strictMono.le_iff_le, magUnits_oneMag, magUnits_ofNat h]
  exact Nat.le_mul_of_pos_left _ h0

theorem mag_ofNat_pos {n : Nat} (h : n < 2 ^ 53) (h0 : 0 < n) : 0 < mag (ofNat n) :=
  lt_of_lt_of_le (by decide) (oneMag_le_mag_ofNat h h0)

/-- Equal fractions round alike. -/
theorem fl_congr (neg : Bool) {n d n' d' : Nat} (hd : 0 < d) (hd' : 0 < d') (h : n * d' = n' * d) :
    fl neg n d = fl neg n' d' := by
  rw [fl, fl, (roundMag_mono hd hd' h.le).antisymm (roundMag_mono hd' hd h.ge)]

/-- A quotient of integers that is an integer is that integer's conversion. -/
theorem div_ofNat_mul {q n : Nat} (hqn : q * n < 2 ^ 53) (hn : n < 2 ^ 53) (h0 : 0 < n) :
    div (ofNat (q * n)) (ofNat n) = ofNat q := by
  have hz := isZero_of_mag_pos (mag_ofNat_pos hn h0)
  rw [div_of_finite (isFinite_ofNat hqn) (isFinite_ofNat hn) hz, isNeg_ofNat, isNeg_ofNat,
    magUnits_ofNat hqn, magUnits_ofNat hn]
  exact fl_congr false (Nat.mul_pos h0 unitsPerOne_pos) Nat.one_pos (by ring)

end Sys2Proof.F64

namespace Sys2Proof

open Machine

/-! ### The sine (40_oscillator.md R134) -/

theorem sinReference_inUnit {x : F64} (hx : F64.isFinite x = true) :
    F64.inUnit (sinReference x) = true := by
  rw [sinReference, hx]
  simp only [F64.inUnit, decide_eq_true_eq, Bool.not_true, Bool.false_eq_true, if_false]
  split
  · rename_i htiny
    exact htiny.trans (by decide)
  · rw [F64.mag_pack _ ((min_le_right _ _).trans_lt (by decide))]
    exact min_le_right _ _

theorem sin64_zero (rom : SineRom) : sin64 rom 0#64 = 0#64 := if_pos rfl

/-- An entry that obeys law 2 gives the sine of its argument. -/
theorem sin64_of_lookup {rom : SineRom} {x v : F64} (hx : x ≠ 0#64) (hrom : rom.lookup x = some v)
    (hv : F64.inUnit v = true) : sin64 rom x = v := by
  simp [sin64, hx, hrom, hv]

theorem sin64_inUnit (rom : SineRom) {x : F64} (hx : F64.isFinite x = true) :
    F64.inUnit (sin64 rom x) = true := by
  have href := sinReference_inUnit hx
  by_cases h0 : x = 0#64
  · rw [h0, sin64_zero]; decide
  rw [sin64, if_neg h0, hx]
  cases rom.lookup x with
  | none => exact href
  | some v => cases hv : F64.inUnit v <;> simp [hv, href]

/-- Settles O38: what `sin64` takes from `sineRom` obeys law 2, and so does the reference sine. -/
theorem everySineIsAdmitted : Obligations.EverySineIsAdmitted :=
  fun rom => ⟨sin64_zero rom, fun _ => sin64_inUnit rom⟩

/-- Settles O39: the table of the function's values at the arguments is such a `sineRom`. -/
theorem everyAdmittedSineIsCovered : Obligations.EveryAdmittedSineIsCovered := by
  rintro sine ⟨hzero, hunit⟩ xs hfin
  refine ⟨xs.map fun x => (x, sine x), fun x hx => ?_⟩
  by_cases h0 : x = 0#64
  · rw [h0, sin64_zero, hzero]
  · exact sin64_of_lookup h0 (List.lookup_graph sine hx) (hunit x (hfin x hx))

/-! ### The phase under REF64 (40_oscillator.md R133) -/

/-- `2 * PI_CONST`, where the doubling is exact. -/
def twoPi : F64 := 0x401921FB54442D18#64

theorem two_mul_piConst : F64.mul (F64.ofNat 2) 0x400921FB54442D18#64 = twoPi := by decide +kernel

/-- The magnitude of 2^-16, a lower bound of `r / f`. -/
def leastRatioMag : Nat := 0x3EF0000000000000

/-- The magnitude of 325 * 2^-27, between 2.4e-6 and 2^-16 / (2 * PI_CONST). -/
def leastCadenceMag : Nat := 0x3EC4500000000000

/-- The magnitude of 1.79e15, between 2^32 / (325 * 2^-27) and 1.8e15. -/
def largestPhaseMag : Nat := 0x43196FFB68978000

theorem magUnits_leastRatioMag : F64.magUnits leastRatioMag * 2 ^ 16 = F64.unitsPerOne := by
  decide +kernel

theorem leastCadence_mul_twoPi_le : F64.magUnits leastCadenceMag * F64.magUnits (F64.mag twoPi) ≤
    F64.magUnits leastRatioMag * F64.unitsPerOne := by decide +kernel

theorem lt_leastCadence : 24 * F64.unitsPerOne < 10 ^ 7 * F64.magUnits leastCadenceMag := by
  decide +kernel

theorem le_largestPhase_mul_leastCadence : 2 ^ 32 * F64.unitsPerOne * F64.unitsPerOne ≤
    F64.magUnits largestPhaseMag * F64.magUnits leastCadenceMag := by decide +kernel

theorem largestPhase_lt : F64.magUnits largestPhaseMag < 18 * 10 ^ 14 * F64.unitsPerOne := by
  decide +kernel

section Phase

variable {i : Word} {f : Freq} {r : Word}

theorem toNat_pos {w : Nat} {v : BitVec w} (h : v ≠ 0#w) : 0 < v.toNat := by
  have : v.toNat ≠ 0 := fun h0 => h (BitVec.eq_of_toNat_eq (by simpa using h0))
  omega

theorem word_toNat_lt (v : Word) : v.toNat < 2 ^ 53 := v.isLt.trans (by decide)

theorem freq_toNat_lt (f : Freq) : f.toNat < 2 ^ 53 := f.isLt.trans (by decide)

theorem isFinite_ratio (hf : 0 < f.toNat) :
    F64.isFinite (F64.div (F64.ofNat r.toNat) (F64.ofNat f.toNat)) = true :=
  have hr := F64.isFinite_ofNat (word_toNat_lt r)
  F64.isFinite_of_mag_le (F64.mag_div_le_self hr (F64.isFinite_ofNat (freq_toNat_lt f))
    (F64.oneMag_le_mag_ofNat (freq_toNat_lt f) hf)) hr

/-- `r / f` is at least 1 / 65535. -/
theorem leastRatioMag_le (hf : 0 < f.toNat) (hr : 0 < r.toNat) :
    leastRatioMag ≤ F64.mag (F64.div (F64.ofNat r.toNat) (F64.ofNat f.toNat)) := by
  refine F64.le_mag_div (F64.isFinite_ofNat (word_toNat_lt r))
    (F64.isFinite_ofNat (freq_toNat_lt f)) (F64.mag_ofNat_pos (freq_toNat_lt f) hf) (by decide) ?_
  rw [F64.magUnits_ofNat (word_toNat_lt r), F64.magUnits_ofNat (freq_toNat_lt f), ← Nat.mul_assoc]
  refine Nat.mul_le_mul_right _ ?_
  calc F64.magUnits leastRatioMag * f.toNat
      ≤ F64.magUnits leastRatioMag * 2 ^ 16 := by gcongr; exact f.isLt.le
    _ = F64.unitsPerOne := magUnits_leastRatioMag
    _ ≤ r.toNat * F64.unitsPerOne := Nat.le_mul_of_pos_left _ hr

theorem cadence_eq_div_twoPi (f : Freq) (r : Word) : cadence 0x400921FB54442D18#64 f r =
    F64.div (F64.div (F64.ofNat r.toNat) (F64.ofNat f.toNat)) twoPi := by
  rw [cadence, two_mul_piConst]

theorem isFinite_cadence (hf : 0 < f.toNat) :
    F64.isFinite (cadence 0x400921FB54442D18#64 f r) = true := by
  rw [cadence_eq_div_twoPi]
  exact F64.isFinite_of_mag_le (F64.mag_div_le_self (isFinite_ratio hf) (by decide) (by decide))
    (isFinite_ratio hf)

theorem isNeg_cadence (hf : 0 < f.toNat) :
    F64.isNeg (cadence 0x400921FB54442D18#64 f r) = false := by
  rw [cadence_eq_div_twoPi, F64.isNeg_div (isFinite_ratio hf) (by decide) (by decide),
    F64.isNeg_div (F64.isFinite_ofNat (word_toNat_lt r)) (F64.isFinite_ofNat (freq_toNat_lt f))
      (F64.mag_ofNat_pos (freq_toNat_lt f) hf), F64.isNeg_ofNat, F64.isNeg_ofNat]
  decide

theorem leastCadenceMag_le (hf : 0 < f.toNat) (hr : 0 < r.toNat) :
    leastCadenceMag ≤ F64.mag (cadence 0x400921FB54442D18#64 f r) := by
  rw [cadence_eq_div_twoPi]
  refine F64.le_mag_div (isFinite_ratio hf) (by decide) (by decide) (by decide) ?_
  exact leastCadence_mul_twoPi_le.trans (Nat.mul_le_mul_right _
    (F64.magUnits_strictMono.monotone (leastRatioMag_le hf hr)))

theorem mag_cadence_pos (hf : 0 < f.toNat) (hr : 0 < r.toNat) :
    0 < F64.mag (cadence 0x400921FB54442D18#64 f r) :=
  lt_of_lt_of_le (by decide) (leastCadenceMag_le hf hr)

theorem isNeg_phase (hf : 0 < f.toNat) (hr : 0 < r.toNat) :
    F64.isNeg (phase 0x400921FB54442D18#64 i f r) = false := by
  rw [phase, F64.isNeg_div (F64.isFinite_ofNat (word_toNat_lt i)) (isFinite_cadence hf)
    (mag_cadence_pos hf hr), F64.isNeg_ofNat, isNeg_cadence hf]
  rfl

theorem mag_phase_le (hf : 0 < f.toNat) (hr : 0 < r.toNat) :
    F64.mag (phase 0x400921FB54442D18#64 i f r) ≤ largestPhaseMag := by
  refine F64.mag_div_le (F64.isFinite_ofNat (word_toNat_lt i)) (isFinite_cadence hf)
    (mag_cadence_pos hf hr) ?_
  rw [F64.magUnits_ofNat (word_toNat_lt i)]
  calc i.toNat * F64.unitsPerOne * F64.unitsPerOne
      ≤ 2 ^ 32 * F64.unitsPerOne * F64.unitsPerOne := by gcongr; exact i.isLt.le
    _ ≤ F64.magUnits largestPhaseMag * F64.magUnits leastCadenceMag :=
        le_largestPhase_mul_leastCadence
    _ ≤ _ := Nat.mul_le_mul_left _ (F64.magUnits_strictMono.monotone (leastCadenceMag_le hf hr))

theorem isFinite_phase (hf : 0 < f.toNat) (hr : 0 < r.toNat) :
    F64.isFinite (phase 0x400921FB54442D18#64 i f r) = true :=
  (F64.isFinite_iff _).2 ((mag_phase_le hf hr).trans_lt (by decide))

/-- The least subnormal is below `1 / cadence`, for the cadence is finite. -/
theorem mag_phase_pos (hf : 0 < f.toNat) (hr : 0 < r.toNat) (hi : 0 < i.toNat) :
    0 < F64.mag (phase 0x400921FB54442D18#64 i f r) := by
  have hinf : F64.magUnits 1 * F64.magUnits F64.infMag ≤ F64.unitsPerOne * F64.unitsPerOne := by
    decide +kernel
  have hcad := (F64.isFinite_iff _).1 (isFinite_cadence (r := r) hf)
  refine F64.le_mag_div (m := 1) (F64.isFinite_ofNat (word_toNat_lt i)) (isFinite_cadence hf)
    (mag_cadence_pos hf hr) (by decide) ?_
  rw [F64.magUnits_ofNat (word_toNat_lt i)]
  calc _ ≤ F64.magUnits 1 * F64.magUnits F64.infMag :=
        Nat.mul_le_mul_left _ (F64.magUnits_strictMono.monotone hcad.le)
    _ ≤ F64.unitsPerOne * F64.unitsPerOne := hinf
    _ ≤ i.toNat * F64.unitsPerOne * F64.unitsPerOne :=
        Nat.mul_le_mul_right _ (Nat.le_mul_of_pos_left _ hi)

theorem phase_index_zero (hf : 0 < f.toNat) (hr : 0 < r.toNat) :
    phase 0x400921FB54442D18#64 0#32 f r = 0#64 := by
  refine F64.eq_of_isNeg_mag (isNeg_phase hf hr) (Nat.le_zero.1 ?_)
  refine F64.mag_div_le (F64.isFinite_ofNat (word_toNat_lt _)) (isFinite_cadence hf)
    (mag_cadence_pos hf hr) ?_
  rw [F64.magUnits_ofNat (word_toNat_lt _)]
  simp

end Phase

/-- Settles O40: the bounds on `r / f` carry over to the cadence and from it to the phase. -/
theorem phaseStaysInRange : Obligations.PhaseStaysInRange := by
  intro i f r hf hr
  replace hf := toNat_pos hf
  replace hr := toNat_pos hr
  have hcad := F64.magUnits_strictMono.monotone (leastCadenceMag_le hf hr)
  have hphase := F64.magUnits_strictMono.monotone (mag_phase_le (i := i) hf hr)
  rw [F64.units_of_not_neg (isNeg_cadence hf), F64.units_of_not_neg (isNeg_phase hf hr)]
  refine ⟨isFinite_cadence hf, ?_, isFinite_phase hf hr, Int.natCast_nonneg _, fun hi => ?_, ?_⟩
  · exact mod_cast lt_leastCadence.trans_le (Nat.mul_le_mul_left _ hcad)
  · exact mod_cast F64.magUnits_pos (mag_phase_pos hf hr (toNat_pos hi))
  · exact mod_cast hphase.trans_lt largestPhase_lt

/-! ### The tone (40_oscillator.md R137 to R140) -/

/-- Settles O41: law 2 of the sine at a finite phase, and the range of the real sine. -/
theorem toneStaysInUnitRange : Obligations.ToneStaysInUnitRange :=
  ⟨fun _ _ _ _ ⟨_, hunit⟩ hf hr => hunit _ (isFinite_phase (toNat_pos hf) (toNat_pos hr)),
    fun _ _ _ => ⟨Real.neg_one_le_sin _, Real.sin_le_one _⟩⟩

theorem toneReal_index_zero (f : Freq) (r : Word) : toneReal 0#32 f r = 0 := by
  simp [toneReal, phaseReal]

/-- Settles O42: the phase is +0 at INDEX 0, and law 1 of the sine. -/
theorem toneStartsAtZero : Obligations.ToneStartsAtZero := by
  rintro sine f r ⟨hzero, -⟩ hf hr
  exact ⟨by rw [tone, phase_index_zero (toNat_pos hf) (toNat_pos hr), hzero],
    toneReal_index_zero f r⟩

/-- At a quarter of the rate `r / f` is exactly 4, so the cadence does not depend on the rate. -/
theorem cadence_quarter {f : Freq} {r : Word} (hf : f ≠ 0#16) (hr : r.toNat = 4 * f.toNat) :
    cadence 0x400921FB54442D18#64 f r = F64.div (F64.ofNat 4) twoPi := by
  rw [cadence_eq_div_twoPi, hr, F64.div_ofNat_mul (by omega) (freq_toNat_lt f) (toNat_pos hf)]

/-- The phase at INDEX `i` and a quarter of any rate. -/
def quarterPhase (i : Word) : F64 := F64.div (F64.ofNat i.toNat) (F64.div (F64.ofNat 4) twoPi)

theorem phase_quarter (i : Word) {f : Freq} {r : Word} (hf : f ≠ 0#16) (hr : r.toNat = 4 * f.toNat) :
    phase 0x400921FB54442D18#64 i f r = quarterPhase i := by
  rw [phase, cadence_quarter hf hr, quarterPhase]

theorem quarterPhase_values :
    quarterPhase 1#32 = 0x3FF921FB54442D18#64 ∧ quarterPhase 2#32 = 0x400921FB54442D18#64 ∧
    quarterPhase 3#32 = 0x4012D97C7F3321D2#64 ∧ quarterPhase 4#32 = 0x401921FB54442D18#64 := by
  decide +kernel

theorem sinReference_quarter_values :
    sinReference 0x3FF921FB54442D18#64 = 0x3FF0000000000000#64 ∧
    sinReference 0x400921FB54442D18#64 = 0x3CA1A62633145C07#64 ∧
    sinReference 0x4012D97C7F3321D2#64 = 0xBFF0000000000000#64 ∧
    sinReference 0x401921FB54442D18#64 = 0xBCB1A62633145C07#64 := by
  decide +kernel

/-- Settles O43: at a quarter of the rate the phases are the same for every rate. -/
theorem quarterPhaseValues : Obligations.QuarterPhaseValues := by
  intro f r hf hr
  obtain ⟨h1, h2, h3, h4⟩ := quarterPhase_values
  simp only [tone, phase_quarter _ hf hr, h1, h2, h3, h4, true_and]
  exact sinReference_quarter_values

/-! ### The tone under REAL (40_oscillator.md R135, R139) -/

/-- The left-to-right formula is the sine of `f * i / r` turns. -/
theorem toneReal_eq_sin_turns (i : Word) (f : Freq) (r : Word) :
    toneReal i f r = Real.sin (((f.toNat * i.toNat : ℕ) : ℝ) / r.toNat * (2 * Real.pi)) := by
  rw [toneReal, phaseReal, cadenceReal, div_div_eq_mul_div, div_div_eq_mul_div]
  push_cast
  ring_nf

/-- Settles O54: `toneReal_eq_sin_turns`, which needs no operand to be other than 0. -/
theorem realToneIsSineOfTurns : Obligations.RealToneIsSineOfTurns := by
  intro i f r _ _
  rw [toneReal_eq_sin_turns]
  push_cast
  ring_nf

/-- The sine of `n / r` turns depends on `n` modulo `r` alone. -/
theorem sin_turns_mod (n : ℕ) {r : ℕ} (hr : 0 < r) :
    Real.sin ((n : ℝ) / r * (2 * Real.pi)) = Real.sin (((n % r : ℕ) : ℝ) / r * (2 * Real.pi)) := by
  have hr' : (r : ℝ) ≠ 0 := mod_cast hr.ne'
  have hturns : (n : ℝ) / r = ((n % r : ℕ) : ℝ) / r + (n / r : ℕ) := by
    rw [div_add' _ _ _ hr']
    exact_mod_cast congrArg (fun m : ℕ => (m : ℝ) / r) (Nat.mod_add_div' n r).symm
  rw [hturns, add_mul, Real.sin_add_nat_mul_two_pi]

/-- Tones of one rate with equal turns modulo the rate are equal. -/
theorem toneReal_congr {i j : Word} {f g : Freq} {r : Word} (hr : 0 < r.toNat)
    (h : f.toNat * i.toNat ≡ g.toNat * j.toNat [MOD r.toNat]) : toneReal i f r = toneReal j g r := by
  rw [toneReal_eq_sin_turns, toneReal_eq_sin_turns, sin_turns_mod _ hr, h, ← sin_turns_mod _ hr]

/-- The rate divides what the tone's period adds to `f * i`. -/
theorem dvd_mul_period (f r : ℕ) : r ∣ f * (r / Nat.gcd f r) :=
  Nat.mul_div_assoc f (Nat.gcd_dvd_right f r) ▸ Nat.dvd_lcm_right f r

theorem toneReal_eq_zero_of_dvd {i : Word} {f : Freq} {r : Word} (hr : 0 < r.toNat)
    (h : r.toNat ∣ 2 * f.toNat) : toneReal i f r = 0 := by
  obtain ⟨c, hc⟩ := h
  have hr' : (r.toNat : ℝ) ≠ 0 := mod_cast hr.ne'
  have hc' : (2 : ℝ) * f.toNat = r.toNat * c := mod_cast hc
  have hhalf : ((f.toNat * i.toNat : ℕ) : ℝ) / r.toNat * (2 * Real.pi) =
      (c * i.toNat : ℕ) * Real.pi := by
    push_cast
    field_simp
    linear_combination (i.toNat : ℝ) * hc'
  rw [toneReal_eq_sin_turns, hhalf, Real.sin_nat_mul_pi]

theorem quantizeReal_zero (k : Word) : quantizeReal 0 k = 128#8 := by
  have h : roundHaReal 0 = 0 := by norm_num [roundHaReal]
  rw [quantizeReal, zero_mul, zero_mul, h]
  rfl

/-- Settles O55: each clause compares `f * i` modulo `r`. -/
theorem realToneAliases : Obligations.RealToneAliases := by
  intro i j f g r _ hr
  replace hr := toNat_pos hr
  refine ⟨fun hij => toneReal_congr hr ?_, fun _ hg => toneReal_congr hr ?_, fun hf => ?_⟩
  · exact (Nat.ModEq.mul_left' f.toNat hij).of_dvd (dvd_mul_period _ _)
  · rw [hg]
    exact ((Nat.mod_modEq _ _).symm).mul_right _
  · have htone : toneReal i f r = 0 :=
      toneReal_eq_zero_of_dvd hr (hf.elim (fun h => ⟨1, by omega⟩) fun h => ⟨2, by omega⟩)
    exact ⟨htone, fun k => by rw [htone, quantizeReal_zero]⟩

end Sys2Proof

namespace Sys2Proof.Machine

/-! ### A sample and its operands (40_oscillator.md R132) -/

/-- A command whose checks pass on a running block shows its sample in SAMPLE_OUT. -/
theorem sampleOut_of_ready {codes : List Cause} {s : State} (hh : s.halted = false)
    (hc : codes = []) (x : Byte) (w : Word) (inc : Bool) :
    (unlessHalted s (sampleCommand codes x w inc s)).sampleOut = x := by
  rw [unlessHalted_of_running hh, sampleCommand, if_pos hc, commit_sampleOut]

theorem sampleOut_exec_dual {s t : State} {inc : Bool} (hs : DualReady s)
    (h : exec (.dual inc) s = .next t) : t.sampleOut = dualSample s := by
  obtain ⟨hh, hready⟩ := hs
  cases h
  exact sampleOut_of_ready hh ((dualCauses_eq_nil s).2 hready) _ _ _

theorem sampleOut_exec_single {s t : State} {inc : Bool} (hs : SingleReady s)
    (h : exec (.single inc) s = .next t) : t.sampleOut = singleSample s := by
  obtain ⟨hh, hready⟩ := hs
  cases h
  exact sampleOut_of_ready hh ((singleCauses_eq_nil s).2 hready) _ _ _

theorem sampleOut_exec_saw {s t : State} {inc : Bool} (hh : s.halted = false)
    (h : exec (.saw inc) s = .next t) : t.sampleOut = sawSample s := by
  cases h
  exact sampleOut_of_ready hh rfl _ _ _

/-- Settles O35: the samples are functions of the operands the statement names. -/
theorem samplesDependOnOperandsOnly : Obligations.SamplesDependOnOperandsOnly := by
  rintro s u s' u' inc inc' hsine hi
    (⟨hs, hu, hr, hA, hB, hk, es, eu⟩ | ⟨hs, hu, hr, hA, hk, es, eu⟩ | ⟨hs, hu, es, eu⟩)
  · rw [sampleOut_exec_dual hs es, sampleOut_exec_dual hu eu]
    simp only [dualSample, toneOf, hsine, hi, hr, hA, hB, hk]
  · rw [sampleOut_exec_single hs es, sampleOut_exec_single hu eu]
    simp only [singleSample, toneOf, hsine, hi, hr, hA, hk]
  · rw [sampleOut_exec_saw hs es, sampleOut_exec_saw hu eu, sawSample, sawSample, hi]

end Sys2Proof.Machine

/-! # The mixer (41_mixer.md R150 to R155)

The sum of two values in [-1, 1] rounds to a magnitude of at most that of 2, and halving keeps the
bound. Doubling is exact below that bound, and halving undoes it. -/

namespace Sys2Proof.F64

/-! ### Sums -/

/-- The order of the operands does not matter, on all bit patterns: of two infinities the sum is the
first only where they are the same. -/
theorem add_swap (a b : F64) : add a b = add b a := by
  rw [add, add, Bool.or_comm (isNaN b), Int.add_comm (units b), Bool.and_comm (isNeg b)]
  cases ha : isInf a with
  | false => cases isInf b <;> rfl
  | true =>
    cases hb : isInf b with
    | false => rfl
    | true =>
      by_cases hs : isNeg a = isNeg b
      · rw [eq_of_isNeg_mag hs ((beq_iff_eq.1 ha).trans (beq_iff_eq.1 hb).symm)]
      · simp [hs, Ne.symm hs]

/-- The magnitude of a sum rounds the absolute value of the exact sum, a zero sum included. -/
theorem mag_add {a b : F64} (ha : isFinite a = true) (hb : isFinite b = true) :
    mag (add a b) = min (roundMag (units a + units b).natAbs 1) infMag := by
  rw [add_of_finite ha hb]
  split
  · rename_i h0
    rw [h0, Int.natAbs_zero, roundMag_zero, Nat.zero_min, mag_pack _ (by decide)]
  · exact mag_fl _ _ _

/-- A magnitude that the exact sum does not exceed is not exceeded by the rounded one. -/
theorem mag_add_le {a b : F64} {m : Nat} (ha : isFinite a = true) (hb : isFinite b = true)
    (h : (units a + units b).natAbs ≤ magUnits m) : mag (add a b) ≤ m := by
  rw [mag_add ha hb]
  exact (min_le_left _ _).trans (roundMag_le Nat.one_pos (by rwa [Nat.mul_one]))

theorem magUnits_two : magUnits (mag (ofNat 2)) = 2 * unitsPerOne := magUnits_ofNat (by decide)

theorem isFinite_two : isFinite (ofNat 2) = true := isFinite_ofNat (by decide)

theorem mag_two_pos : 0 < mag (ofNat 2) := mag_ofNat_pos (by decide) (by decide)

theorem mag_add_le_two {a b : F64} (ha : inUnit a = true) (hb : inUnit b = true) :
    mag (add a b) ≤ mag (ofNat 2) := by
  refine mag_add_le (isFinite_of_inUnit ha) (isFinite_of_inUnit hb) ?_
  rw [inUnit_iff, ← natAbs_units] at ha hb
  rw [magUnits_two]
  omega

theorem isFinite_add_of_inUnit {a b : F64} (ha : inUnit a = true) (hb : inUnit b = true) :
    isFinite (add a b) = true :=
  isFinite_of_mag_le (mag_add_le_two ha hb) isFinite_two

/-! ### Doubling -/

/-- Rounding keeps the value of a finite `x`. -/
theorem fl_magUnits_mag {x : F64} (hx : isFinite x = true) :
    fl (isNeg x) (magUnits (mag x)) 1 = x := by
  have hround : roundMag (magUnits (mag x)) 1 = mag x := by
    simpa using roundMag_magUnits (mag x) Nat.one_pos
  rw [fl_eq_pack _ hround ((isFinite_iff x).1 hx).le, pack_isNeg_mag]

theorem units_add_self (a : F64) :
    units a + units a = signed (isNeg a) (2 * magUnits (mag a)) := by
  rw [units_eq_signed]
  cases isNeg a <;> simp only [signed] <;> push_cast <;> ring

theorem natAbs_signed (neg : Bool) (n : Nat) : (signed neg n).natAbs = n := by
  cases neg <;> simp [signed]

theorem signed_lt_zero (neg : Bool) {n : Nat} (h : 0 < n) : decide (signed neg n < 0) = neg := by
  cases neg <;> simp [signed, h]

theorem add_self {a : F64} (ha : isFinite a = true) :
    add a a = fl (isNeg a) (2 * magUnits (mag a)) 1 := by
  rw [add_of_finite ha ha, units_add_self, Bool.and_self]
  rcases Nat.eq_zero_or_pos (2 * magUnits (mag a)) with h | h
  · rw [h, fl_eq_pack _ (roundMag_zero 1) (Nat.zero_le _)]
    exact if_pos (by cases isNeg a <;> rfl)
  · have hne : signed (isNeg a) (2 * magUnits (mag a)) ≠ 0 := by
      rwa [← Int.natAbs_pos, natAbs_signed]
    rw [if_neg hne, signed_lt_zero _ h, natAbs_signed]

/-- Twice a magnitude's value is a magnitude's value: the significand stays, the exponent grows. -/
theorem exists_magUnits_double (m : Nat) : ∃ m', magUnits m' = 2 * magUnits m := by
  obtain ⟨k, q, rfl, hk, hq⟩ := exists_step m
  obtain ⟨m', hm', -⟩ := exists_magUnits_eq (k + 1) hq
  exact ⟨m', by rw [hm', magUnits_step k hk hq.le]; ring⟩

/-- Doubling is exact wherever it does not overflow. -/
theorem magUnits_mag_add_self {a : F64} (ha : isFinite a = true)
    (hfin : isFinite (add a a) = true) : magUnits (mag (add a a)) = 2 * magUnits (mag a) := by
  obtain ⟨m, hm⟩ := exists_magUnits_double (mag a)
  have hround : roundMag (2 * magUnits (mag a)) 1 = m := by
    rw [← hm]; simpa using roundMag_magUnits m Nat.one_pos
  rw [isFinite_iff, add_self ha, mag_fl, hround] at hfin
  rw [add_self ha, mag_fl, hround, min_eq_left (by omega), hm]

theorem isNeg_add_self {a : F64} (ha : isFinite a = true) : isNeg (add a a) = isNeg a := by
  rw [add_self ha, isNeg_fl]

/-- Halving a finite double gives the value back, the sign of a zero included. -/
theorem half_double {a : F64} (ha : isFinite a = true) (hfin : isFinite (add a a) = true) :
    div (add a a) (ofNat 2) = a := by
  rw [div_of_finite hfin isFinite_two (isZero_of_mag_pos mag_two_pos), isNeg_add_self ha,
    isNeg_ofNat, Bool.bne_false, magUnits_mag_add_self ha hfin, magUnits_two]
  calc fl (isNeg a) (2 * magUnits (mag a) * unitsPerOne) (2 * unitsPerOne)
      = fl (isNeg a) (magUnits (mag a)) 1 :=
        fl_congr _ (Nat.mul_pos Nat.two_pos unitsPerOne_pos) Nat.one_pos (by ring)
    _ = a := fl_magUnits_mag ha

/-! ### The negative of a value -/

theorem isNeg_flipSign (a : F64) : isNeg (a ^^^ 0x8000000000000000#64) = !isNeg a := by
  have hsign : (0x8000000000000000#64).msb = true := by decide
  rw [isNeg, isNeg, BitVec.msb_xor, hsign, Bool.xor_true]

theorem mag_flipSign (a : F64) : mag (a ^^^ 0x8000000000000000#64) = mag a := by
  rw [mag, mag, BitVec.toNat_xor, Nat.xor_mod_two_pow]
  exact Nat.xor_zero _

theorem units_flipSign (a : F64) : units (a ^^^ 0x8000000000000000#64) = -units a := by
  rw [units, units, isNeg_flipSign, mag_flipSign]
  cases isNeg a <;> simp

/-- A value and its negative have the exact sum 0 and different signs. -/
theorem add_flipSign {a : F64} (ha : isFinite a = true) :
    add a (a ^^^ 0x8000000000000000#64) = 0#64 := by
  have hneg : isFinite (a ^^^ 0x8000000000000000#64) = true :=
    isFinite_of_mag_le (mag_flipSign a).le ha
  rw [add_of_finite ha hneg, units_flipSign, if_pos (Int.add_right_neg _), isNeg_flipSign,
    Bool.and_not_self]
  rfl

end Sys2Proof.F64

namespace Sys2Proof

/-! ### The mean (41_mixer.md R151, R152, R154) -/

theorem mix_comm (a b : F64) : mix a b = mix b a := by rw [mix, mix, F64.add_swap]

theorem mix_self {a : F64} (ha : F64.inUnit a = true) : mix a a = a :=
  F64.half_double (F64.isFinite_of_inUnit ha) (F64.isFinite_add_of_inUnit ha ha)

/-- Settles O44: `mix_comm`, and `mix_self`, where doubling is exact. -/
theorem mixCommutesAndKeepsEqualTones : Obligations.MixCommutesAndKeepsEqualTones := by
  refine ⟨mix_comm, fun _ => mix_self, fun a b => ?_, fun a => add_self_div_two a⟩
  rw [mixReal, mixReal, add_comm]

/-- The sum lies in [-2, 2], so half of it lies in [-1, 1]. -/
theorem mix_inUnit {a b : F64} (ha : F64.inUnit a = true) (hb : F64.inUnit b = true) :
    F64.inUnit (mix a b) = true := by
  have hsum : F64.magUnits (F64.mag (F64.add a b)) ≤ F64.magUnits (F64.mag (F64.ofNat 2)) :=
    F64.magUnits_strictMono.monotone (F64.mag_add_le_two ha hb)
  refine decide_eq_true (F64.mag_div_le (F64.isFinite_add_of_inUnit ha hb) F64.isFinite_two
    F64.mag_two_pos ?_)
  rw [F64.magUnits_oneMag, Nat.mul_comm]
  exact Nat.mul_le_mul_left _ hsum

/-- Settles O45: `mix_inUnit`, and the mean of two reals lies between their bounds. -/
theorem mixStaysInUnitRange : Obligations.MixStaysInUnitRange := by
  refine ⟨fun _ _ => mix_inUnit, fun a b ha ha' hb hb' => ?_⟩
  rw [mixReal]
  constructor <;> linarith

/-- Settles O46: opposite tones add up to +0, and the peaks are equal tones. -/
theorem oppositeTonesCancel : Obligations.OppositeTonesCancel := by
  refine ⟨fun a ha => ?_, mix_self (by decide), mix_self (by decide)⟩
  rw [mix, F64.add_flipSign ha]
  exact mix_self (a := 0#64) (by decide)

end Sys2Proof

/-! # The quantizer (42_quantizer.md R160 to R169)

Both number systems end in one function of the scaled signal as a real, `sampleOfScaled`: what
`round_ha` and the clamp do is said of that function once. Under REF64 the scaled signal is `fl` of
the exact `sig * k / 512`, so its range, its zeros and its order are those of rounding. -/

namespace Sys2Proof.F64

/-! ### Exact results -/

/-- A result that a finite magnitude represents is not rounded. -/
theorem fl_exact (neg : Bool) {n d m : Nat} (hd : 0 < d) (h : magUnits m * d = n)
    (hm : m < infMag) :
    isFinite (fl neg n d) = true ∧ magUnits (mag (fl neg n d)) = magUnits m := by
  have hmag : mag (fl neg n d) = m := by
    rw [mag_fl, ← h, roundMag_magUnits m hd, min_eq_left hm.le]
  exact ⟨by rwa [isFinite_iff, hmag], by rw [hmag]⟩

/-- A magnitude's value times a power of 2 is a magnitude's value. -/
theorem exists_magUnits_mul_two_pow (m e : Nat) : ∃ m', magUnits m' = magUnits m * 2 ^ e := by
  obtain ⟨k, q, rfl, hk, hq⟩ := exists_step m
  obtain ⟨m', hm', -⟩ := exists_magUnits_eq (k + e) hq
  exact ⟨m', by rw [hm', magUnits_step k hk hq.le, pow_add, Nat.mul_assoc]⟩

/-- A finite magnitude represents `q / 2 ^ e` for every `q` below 2^53. -/
theorem exists_magUnits_eq_div {q e : Nat} (hq : q < 2 ^ 53) (he : e ≤ 1074) :
    ∃ m, magUnits m * 2 ^ e = q * unitsPerOne ∧ m < infMag := by
  obtain ⟨m, hm, hlt⟩ := exists_magUnits_eq (1074 - e) hq
  refine ⟨m, ?_, by rw [infMag]; omega⟩
  rw [unitsPerOne_eq, ← Nat.pow_sub_mul_pow 2 he, hm, Nat.mul_assoc]

/-! ### Signed values -/

theorem signed_mul_natCast (neg : Bool) (m n : Nat) : signed neg (m * n) = signed neg m * n := by
  cases neg <;> simp [signed]

/-- A monotone function of magnitudes that keeps 0 is monotone on signed values. -/
theorem signed_map_le {f : Nat → Nat} (hf : Monotone f) (h0 : f 0 = 0) {s t : Bool} {m n : Nat}
    (h : signed s m ≤ signed t n) : signed s (f m) ≤ signed t (f n) := by
  cases s <;> cases t <;> simp only [signed, if_true, Bool.false_eq_true, if_false] at h ⊢
  · exact mod_cast hf (mod_cast h)
  · obtain ⟨rfl, rfl⟩ : m = 0 ∧ n = 0 := by omega
    omega
  · omega
  · have := hf (show n ≤ m by omega)
    omega

theorem units_fl (neg : Bool) (n d : Nat) :
    units (fl neg n d) = signed neg (magUnits (min (roundMag n d) infMag)) := by
  rw [units_eq_signed, isNeg_fl, mag_fl]

theorem units_fl_zero (neg : Bool) (d : Nat) : units (fl neg 0 d) = 0 := by
  rw [units_fl, roundMag_zero, Nat.zero_min, magUnits_zero]
  cases neg <;> rfl

/-- Rounding is monotone on signed values (42_quantizer.md R167). -/
theorem units_fl_mono {s t : Bool} {m n d : Nat} (hd : 0 < d) (h : signed s m ≤ signed t n) :
    units (fl s m d) ≤ units (fl t n d) := by
  rw [units_fl, units_fl]
  refine signed_map_le (f := fun x => magUnits (min (roundMag x d) infMag)) ?_ ?_ h
  · exact fun _ _ hxy => magUnits_strictMono.monotone
      (min_le_min_right _ (roundMag_mono hd hd (Nat.mul_le_mul_right d hxy)))
  · rw [roundMag_zero, Nat.zero_min, magUnits_zero]

theorem toReal_eq (x : F64) : toReal x = units x / unitsPerOne := by
  rw [toReal, unitsPerOne_eq, Nat.cast_pow, Nat.cast_ofNat]

theorem unitsPerOne_pos_real : (0 : ℝ) < unitsPerOne := mod_cast unitsPerOne_pos

/-- A threshold of `c` halves, compared in units. -/
theorem half_le_toReal_iff (c : Int) (x : F64) :
    (c : ℝ) / 2 ≤ toReal x ↔ c * (unitsPerOne : Int) ≤ 2 * units x := by
  rw [toReal_eq, div_le_div_iff₀ two_pos unitsPerOne_pos_real, mul_comm (units x : ℝ)]
  norm_cast

theorem abs_toReal (x : F64) : |toReal x| = (|units x| : Int) / (unitsPerOne : ℝ) := by
  rw [toReal_eq, abs_div, abs_of_pos unitsPerOne_pos_real, Int.cast_abs]

end Sys2Proof.F64

namespace Sys2Proof

/-! ### The scaled signal under REF64 (42_quantizer.md R162) -/

section ScaledSignal

variable {sig : F64}

/-- `y1 = sig * 128` is exact. -/
theorem mul_128_exact (h : F64.inUnit sig = true) :
    F64.isFinite (F64.mul sig (F64.ofNat 128)) = true ∧
    F64.magUnits (F64.mag (F64.mul sig (F64.ofNat 128))) = F64.magUnits (F64.mag sig) * 2 ^ 7 := by
  obtain ⟨m, hm⟩ := F64.exists_magUnits_mul_two_pow (F64.mag sig) 7
  have hfin : m < F64.infMag := by
    refine lt_of_le_of_lt ?_ ((F64.isFinite_iff _).1 (F64.isFinite_ofNat (n := 128) (by decide)))
    rw [← F64.magUnits_strictMono.le_iff_le, hm, F64.magUnits_ofNat (by decide), Nat.mul_comm]
    exact Nat.mul_le_mul_left _ ((F64.inUnit_iff sig).1 h)
  rw [F64.mul_of_finite (F64.isFinite_of_inUnit h) (F64.isFinite_ofNat (by decide)),
    F64.magUnits_ofNat (by decide), ← hm]
  exact F64.fl_exact _ F64.unitsPerOne_pos (by rw [hm]; ring) hfin

theorem isNeg_mul_128 (h : F64.inUnit sig = true) :
    F64.isNeg (F64.mul sig (F64.ofNat 128)) = F64.isNeg sig := by
  rw [F64.mul_of_finite (F64.isFinite_of_inUnit h) (F64.isFinite_ofNat (by decide)), F64.isNeg_fl,
    F64.isNeg_ofNat, Bool.bne_false]

/-- `sc = k / 65536` is exact, whatever the scale code. -/
theorem scale_exact (k : Word) :
    F64.isFinite (F64.div (F64.ofNat k.toNat) (F64.ofNat 65536)) = true ∧
    F64.magUnits (F64.mag (F64.div (F64.ofNat k.toNat) (F64.ofNat 65536))) * 2 ^ 16 =
      k.toNat * F64.unitsPerOne := by
  obtain ⟨m, hm, hfin⟩ := F64.exists_magUnits_eq_div (e := 16) (word_toNat_lt k) (by decide)
  rw [F64.div_of_finite (F64.isFinite_ofNat (word_toNat_lt k)) (F64.isFinite_ofNat (by decide))
    (F64.isZero_of_mag_pos (F64.mag_ofNat_pos (by decide) (by decide))),
    F64.magUnits_ofNat (word_toNat_lt k), F64.magUnits_ofNat (by decide), F64.isNeg_ofNat,
    F64.isNeg_ofNat, Bool.bne_false]
  have hexact : F64.magUnits m * (65536 * F64.unitsPerOne) =
      k.toNat * F64.unitsPerOne * F64.unitsPerOne := by rw [← hm]; ring
  obtain ⟨hfl, hmag⟩ :=
    F64.fl_exact false (Nat.mul_pos (by decide) F64.unitsPerOne_pos) hexact hfin
  exact ⟨hfl, by rw [hmag, hm]⟩

theorem isNeg_scale (k : Word) :
    F64.isNeg (F64.div (F64.ofNat k.toNat) (F64.ofNat 65536)) = false := by
  rw [F64.isNeg_div (F64.isFinite_ofNat (word_toNat_lt k)) (F64.isFinite_ofNat (by decide))
    (F64.mag_ofNat_pos (by decide) (by decide)), F64.isNeg_ofNat, F64.isNeg_ofNat]
  rfl

/-- `y` is the exact `sig * k / 512`, rounded once. -/
theorem scaledSignal_eq_fl (h : F64.inUnit sig = true) (k : Word) :
    scaledSignal sig k = F64.fl (F64.isNeg sig) (F64.magUnits (F64.mag sig) * k.toNat) 512 := by
  obtain ⟨hfin₁, hmag₁⟩ := mul_128_exact h
  obtain ⟨hfin₂, hmag₂⟩ := scale_exact k
  rw [scaledSignal, F64.mul_of_finite hfin₁ hfin₂, isNeg_mul_128 h, isNeg_scale, Bool.bne_false,
    hmag₁]
  refine F64.fl_congr _ F64.unitsPerOne_pos (by decide) ?_
  linear_combination F64.magUnits (F64.mag sig) * hmag₂

theorem units_mul_128 (h : F64.inUnit sig = true) :
    F64.units (F64.mul sig (F64.ofNat 128)) = 128 * F64.units sig := by
  rw [F64.units_eq_signed, isNeg_mul_128 h, (mul_128_exact h).2, F64.signed_mul_natCast,
    ← F64.units_eq_signed, mul_comm]
  rfl

/-- At a legal scale `|sig * k / 512|` is at most 128, and so is its rounding. -/
theorem mag_scaledSignal_le (h : F64.inUnit sig = true) {k : Word} (hk : k ≤ 0x10000#32) :
    F64.mag (scaledSignal sig k) ≤ F64.mag (F64.ofNat 128) := by
  rw [scaledSignal_eq_fl h, F64.mag_fl]
  refine (min_le_left _ _).trans (F64.roundMag_le (by decide) ?_)
  rw [F64.magUnits_ofNat (by decide)]
  calc F64.magUnits (F64.mag sig) * k.toNat
      ≤ F64.unitsPerOne * 0x10000 := Nat.mul_le_mul ((F64.inUnit_iff sig).1 h) hk
    _ = 128 * F64.unitsPerOne * 512 := by ring

theorem abs_units_scaledSignal_le (h : F64.inUnit sig = true) {k : Word} (hk : k ≤ 0x10000#32) :
    |F64.units (scaledSignal sig k)| ≤ 128 * (F64.unitsPerOne : Int) := by
  have hle := F64.magUnits_strictMono.monotone (mag_scaledSignal_le h hk)
  rw [F64.magUnits_ofNat (by decide)] at hle
  rw [F64.abs_units]
  exact mod_cast hle

theorem units_scaledSignal_eq_zero (h : F64.inUnit sig = true) {k : Word}
    (h0 : F64.magUnits (F64.mag sig) * k.toNat = 0) : F64.units (scaledSignal sig k) = 0 := by
  rw [scaledSignal_eq_fl h, h0, F64.units_fl_zero]

theorem units_scaledSignal_mono {a b : F64} (ha : F64.inUnit a = true) (hb : F64.inUnit b = true)
    (hab : F64.units a ≤ F64.units b) (k : Word) :
    F64.units (scaledSignal a k) ≤ F64.units (scaledSignal b k) := by
  rw [scaledSignal_eq_fl ha, scaledSignal_eq_fl hb]
  refine F64.units_fl_mono (by decide) ?_
  rw [F64.signed_mul_natCast, F64.signed_mul_natCast, ← F64.units_eq_signed, ← F64.units_eq_signed]
  exact mul_le_mul_of_nonneg_right hab (Int.natCast_nonneg _)

/-- At full scale `y` is `sig * 128`, which is exact. -/
theorem units_scaledSignal_full (h : F64.inUnit sig = true) :
    F64.units (scaledSignal sig 0x10000#32) = 128 * F64.units sig := by
  have hfl : scaledSignal sig 0x10000#32 = F64.mul sig (F64.ofNat 128) := by
    rw [scaledSignal_eq_fl h, F64.mul_of_finite (F64.isFinite_of_inUnit h)
      (F64.isFinite_ofNat (by decide)), F64.isNeg_ofNat, Bool.bne_false,
      F64.magUnits_ofNat (by decide)]
    refine F64.fl_congr _ (by decide) F64.unitsPerOne_pos ?_
    rw [show (0x10000#32 : Word).toNat = 65536 from rfl]
    ring
  rw [hfl, units_mul_128 h]

end ScaledSignal

/-- Settles O59: both factors are exact, so the product is `fl` of the exact `sig * k / 512`. -/
theorem scaledSignalRoundsOnce : Obligations.ScaledSignalRoundsOnce := by
  intro sig k h hk
  refine ⟨units_mul_128 h, ?_, ?_⟩
  · rw [F64.units_of_not_neg (isNeg_scale k), mul_comm]
    exact mod_cast (scale_exact k).2
  · have hover : 2 * (F64.unitsPerOne * 0x10000) < F64.twiceOverflow * 512 := by decide +kernel
    have hmag : F64.magUnits (F64.mag sig) * k.toNat ≤ F64.unitsPerOne * 0x10000 :=
      Nat.mul_le_mul ((F64.inUnit_iff sig).1 h) hk
    rw [scaledSignal_eq_fl h, F64.units_eq_signed sig, ← F64.signed_mul_natCast]
    exact F64.nearestEven_fl _ (by decide) (lt_of_le_of_lt (Nat.mul_le_mul_left 2 hmag) hover)

/-! ### Rounding half away from zero (42_quantizer.md R163) -/

theorem roundHaReal_of_nonneg {y : ℝ} (h : 0 ≤ y) : roundHaReal y = ⌊y + 1 / 2⌋ := if_pos h

theorem roundHaReal_of_neg {y : ℝ} (h : y < 0) : roundHaReal y = -⌊-y + 1 / 2⌋ := if_neg h.not_ge

theorem roundHaReal_intCast (n : ℤ) : roundHaReal n = n := by
  have hfloor (m : ℤ) : ⌊(m : ℝ) + 1 / 2⌋ = m := by
    rw [Int.floor_intCast_add, add_eq_left, Int.floor_eq_zero_iff]; norm_num
  rcases le_or_gt 0 (n : ℝ) with h | h
  · rw [roundHaReal_of_nonneg h, hfloor]
  · rw [roundHaReal_of_neg h, ← Int.cast_neg, hfloor, neg_neg]

/-- Rounding commutes with the change of sign. -/
theorem roundHaReal_neg (y : ℝ) : roundHaReal (-y) = -roundHaReal y := by
  rcases lt_trichotomy y 0 with h | rfl | h
  · rw [roundHaReal_of_neg h, roundHaReal_of_nonneg (by linarith), neg_neg]
  · have h0 : roundHaReal 0 = 0 := mod_cast roundHaReal_intCast 0
    rw [neg_zero, h0, neg_zero]
  · rw [roundHaReal_of_nonneg h.le, roundHaReal_of_neg (by linarith), neg_neg]

/-- `round_ha` reaches a positive integer one half below it. -/
theorem le_roundHaReal_iff {m : ℤ} (hm : 0 < m) (y : ℝ) :
    m ≤ roundHaReal y ↔ (m : ℝ) - 1 / 2 ≤ y := by
  rcases le_or_gt 0 y with h | h
  · rw [roundHaReal_of_nonneg h, Int.le_floor, sub_le_iff_le_add]
  · have hfloor : 0 ≤ ⌊-y + 1 / 2⌋ := Int.floor_nonneg.2 (by linarith)
    have hm' : (1 : ℝ) ≤ m := mod_cast hm
    rw [roundHaReal_of_neg h]
    constructor
    · intro; omega
    · intro; linarith

theorem roundHaReal_nonneg {y : ℝ} (h : 0 ≤ y) : 0 ≤ roundHaReal y := by
  rw [roundHaReal_of_nonneg h]
  exact Int.floor_nonneg.2 (by linarith)

theorem roundHaReal_mono : Monotone roundHaReal := by
  intro y z hyz
  rcases le_or_gt 0 y with hy | hy
  · rw [roundHaReal_of_nonneg hy, roundHaReal_of_nonneg (hy.trans hyz)]
    exact Int.floor_mono (by linarith)
  rcases le_or_gt 0 z with hz | hz
  · have hneg := roundHaReal_nonneg (neg_nonneg.2 hy.le)
    rw [roundHaReal_neg] at hneg
    have := roundHaReal_nonneg hz
    omega
  · rw [roundHaReal_of_neg hy, roundHaReal_of_neg hz]
    exact neg_le_neg (Int.floor_mono (by linarith))

/-- Rounding moves a value by one half at most, and by one half only away from zero. -/
theorem roundHaReal_error (y : ℝ) :
    2 * |y - roundHaReal y| ≤ 1 ∧ (2 * |y - roundHaReal y| = 1 → |y| < |(roundHaReal y : ℝ)|) := by
  wlog h : 0 ≤ y generalizing y
  · have hneg := this (-y) (by linarith)
    rwa [roundHaReal_neg, Int.cast_neg, ← neg_sub', abs_neg, abs_neg, abs_neg] at hneg
  have hr : (0 : ℝ) ≤ roundHaReal y := mod_cast roundHaReal_nonneg h
  have hle := Int.floor_le (y + 1 / 2)
  have hlt := Int.lt_floor_add_one (y + 1 / 2)
  rw [← roundHaReal_of_nonneg h] at hle hlt
  rw [abs_of_nonneg h, abs_of_nonneg hr]
  refine ⟨?_, fun htie => ?_⟩
  · have : |y - roundHaReal y| ≤ 1 / 2 := abs_le.2 ⟨by linarith, by linarith⟩
    linarith
  · rcases abs_cases (y - roundHaReal y) with ⟨habs, -⟩ | ⟨habs, -⟩ <;> linarith

theorem roundHaReal_of_abs_lt_half {y : ℝ} (h : |y| < 1 / 2) : roundHaReal y = 0 := by
  have herr := (roundHaReal_error y).1
  have habs : |(roundHaReal y : ℝ)| < 1 := by
    have := abs_sub_abs_le_abs_sub (roundHaReal y : ℝ) y
    rw [abs_sub_comm (roundHaReal y : ℝ)] at this
    linarith
  exact Int.abs_lt_one_iff.1 (mod_cast habs)

/-- `round_ha` of a fraction is `round_ha` of the real it stands for. -/
theorem roundHa_eq_roundHaReal (n : ℤ) {d : ℕ} (hd : 0 < d) :
    roundHa n d = roundHaReal (n / d) := by
  have hd' : (0 : ℝ) < d := mod_cast hd
  have hfloor (m : ℤ) : ⌊(m : ℝ) / d + 1 / 2⌋ = (2 * m + d) / (2 * d) := by
    rw [show (m : ℝ) / d + 1 / 2 = ((2 * m + d : ℤ) : ℝ) / (2 * d : ℕ) by push_cast; field_simp,
      Int.floor_div_natCast, Int.floor_intCast]
    rfl
  rw [roundHa, roundHaReal, neg_div', ← Int.cast_neg, hfloor, hfloor]
  simp only [le_div_iff₀ hd', zero_mul, Int.cast_nonneg_iff]

/-- Settles O49: `roundHaReal_error`; on fractions both sides are multiplied by the denominator. -/
theorem roundHalfAwayFromZero : Obligations.RoundHalfAwayFromZero := by
  refine ⟨fun n d hd => ?_, roundHaReal_error⟩
  have hd' : (0 : ℝ) < d := mod_cast hd
  obtain ⟨herr, htie⟩ := roundHaReal_error ((n : ℝ) / d)
  rw [← roundHa_eq_roundHaReal n hd] at herr htie
  have hscale : |(n : ℝ) / d - roundHa n d| = (|n - d * roundHa n d| : ℤ) / (d : ℝ) := by
    rw [div_sub' hd'.ne', abs_div, abs_of_pos hd']; push_cast; rfl
  rw [hscale, mul_div_assoc', div_le_one hd'] at herr
  rw [hscale, mul_div_assoc', div_eq_one_iff_eq hd'.ne', abs_div, abs_of_pos hd', div_lt_iff₀' hd']
    at htie
  exact ⟨mod_cast herr, fun h => by exact_mod_cast htie (mod_cast h)⟩

/-! ### The clamp and the sample of a scaled signal (42_quantizer.md R164 to R167) -/

theorem toNat_clampSample (v : ℤ) : (clampSample v).toNat = (min (max v 0) 255).toNat := by
  rw [clampSample, BitVec.toNat_ofNat]
  omega

theorem clampSample_mono {v w : ℤ} (h : v ≤ w) : (clampSample v).toNat ≤ (clampSample w).toNat := by
  rw [toNat_clampSample, toNat_clampSample]
  omega

theorem clampSample_eq_255_iff (v : ℤ) : clampSample v = 255#8 ↔ 255 ≤ v := by
  rw [← BitVec.toNat_inj, toNat_clampSample, BitVec.toNat_ofNat]
  omega

theorem clampSample_toNat (b : Byte) : clampSample b.toNat = b := by
  rw [← BitVec.toNat_inj, toNat_clampSample]
  have := b.isLt
  omega

/-- The sample of a scaled signal `y`: `clamp(128 + round_ha(y), 0, 255)` (42_quantizer.md R161). -/
noncomputable def sampleOfScaled (y : ℝ) : Byte := clampSample (128 + roundHaReal y)

theorem quantize_eq (sig : F64) (k : Word) :
    quantize sig k = sampleOfScaled (F64.toReal (scaledSignal sig k)) := by
  rw [quantize, sampleOfScaled, F64.toReal_eq, roundHa_eq_roundHaReal _ F64.unitsPerOne_pos]

theorem quantizeReal_eq (sig : ℝ) (k : Word) :
    quantizeReal sig k = sampleOfScaled (sig * 128 * ((k.toNat : ℝ) / 65536)) := rfl

theorem sampleOfScaled_mono {y z : ℝ} (h : y ≤ z) :
    (sampleOfScaled y).toNat ≤ (sampleOfScaled z).toNat :=
  clampSample_mono (Int.add_le_add_left (roundHaReal_mono h) 128)

theorem sampleOfScaled_of_abs_lt_half {y : ℝ} (h : |y| < 1 / 2) : sampleOfScaled y = 128#8 := by
  rw [sampleOfScaled, roundHaReal_of_abs_lt_half h]
  rfl

theorem sampleOfScaled_zero : sampleOfScaled 0 = 128#8 :=
  sampleOfScaled_of_abs_lt_half (by norm_num)

/-- Each sample is that of its distance from the center. -/
theorem sampleOfScaled_toNat_sub (b : Byte) : sampleOfScaled ((b.toNat : ℤ) - 128 : ℤ) = b := by
  rw [sampleOfScaled, roundHaReal_intCast, add_sub_cancel, clampSample_toNat]

theorem sampleOfScaled_eq_255_iff (y : ℝ) : sampleOfScaled y = 255#8 ↔ 253 / 2 ≤ y := by
  have hround : 127 ≤ roundHaReal y ↔ 253 / 2 ≤ y := by
    rw [le_roundHaReal_iff (by decide)]; norm_num
  rw [sampleOfScaled, clampSample_eq_255_iff, ← hround]
  omega

/-- Where the clamp acts (42_quantizer.md R164). -/
theorem lt_128_add_roundHaReal_iff (y : ℝ) : 255 < 128 + roundHaReal y ↔ 255 / 2 ≤ y := by
  have hround : 128 ≤ roundHaReal y ↔ 255 / 2 ≤ y := by
    rw [le_roundHaReal_iff (by decide)]; norm_num
  rw [← hround]
  omega

theorem roundHaReal_in_range {y : ℝ} (h : |y| ≤ 128) :
    0 ≤ 128 + roundHaReal y ∧ 128 + roundHaReal y ≤ 256 := by
  obtain ⟨hlow, hhigh⟩ := abs_le.1 h
  have hlow' : -128 ≤ roundHaReal y := by
    simpa only [roundHaReal_intCast] using roundHaReal_mono (show ((-128 : ℤ) : ℝ) ≤ y by simpa)
  have hhigh' : roundHaReal y ≤ 128 := by
    simpa only [roundHaReal_intCast] using roundHaReal_mono (show y ≤ ((128 : ℤ) : ℝ) by simpa)
  omega

/-! ### The quantizer (42_quantizer.md R164 to R167) -/

/-- Under REAL the scaled signal at a legal scale lies in [-128, 128] as well. -/
theorem abs_scaledReal_le {sig : ℝ} (h : |sig| ≤ 1) {k : Word} (hk : k ≤ 0x10000#32) :
    |sig * 128 * ((k.toNat : ℝ) / 65536)| ≤ 128 := by
  have hscale : (k.toNat : ℝ) / 65536 ≤ 1 :=
    (div_le_one (by norm_num)).2 (by exact_mod_cast (show k.toNat ≤ 65536 from hk))
  rw [abs_mul, abs_mul, abs_of_nonneg (by positivity : (0 : ℝ) ≤ (k.toNat : ℝ) / 65536),
    abs_of_pos (by norm_num : (0 : ℝ) < 128)]
  calc |sig| * 128 * ((k.toNat : ℝ) / 65536) ≤ 1 * 128 * 1 := by gcongr
    _ = 128 := by norm_num

theorem quantize_of_units_eq_zero {sig : F64} {k : Word}
    (h : F64.units (scaledSignal sig k) = 0) : quantize sig k = 128#8 := by
  rw [quantize_eq, F64.toReal_eq, h, Int.cast_zero, zero_div, sampleOfScaled_zero]

theorem quantize_scale_zero {sig : F64} (h : F64.inUnit sig = true) : quantize sig 0#32 = 128#8 :=
  quantize_of_units_eq_zero (units_scaledSignal_eq_zero h (Nat.mul_zero _))

theorem quantize_of_mag_eq_zero {sig : F64} (h : F64.mag sig = 0) (k : Word) :
    quantize sig k = 128#8 := by
  refine quantize_of_units_eq_zero (units_scaledSignal_eq_zero ?_ ?_)
  · rw [F64.inUnit_iff, h, F64.magUnits_zero]; exact Nat.zero_le _
  · rw [h, F64.magUnits_zero, Nat.zero_mul]

theorem quantizeReal_scale_zero (sig : ℝ) : quantizeReal sig 0#32 = 128#8 := by
  have hzero : sig * 128 * (((0#32).toNat : ℝ) / 65536) = 0 := by simp
  rw [quantizeReal_eq, hzero, sampleOfScaled_zero]

/-- Settles O50: in every clause the scaled signal is below one half. -/
theorem silenceQuantizesTo128 : Obligations.SilenceQuantizesTo128 := by
  refine ⟨fun k => ⟨quantize_of_mag_eq_zero rfl k, quantize_of_mag_eq_zero rfl k⟩,
    fun _ => quantize_scale_zero, fun sig k h => ?_, quantizeReal_zero, quantizeReal_scale_zero,
    fun _ _ => sampleOfScaled_of_abs_lt_half⟩
  rw [quantize_eq]
  refine sampleOfScaled_of_abs_lt_half ?_
  rw [F64.abs_toReal, div_lt_div_iff₀ F64.unitsPerOne_pos_real two_pos]
  exact_mod_cast (by linarith : |F64.units (scaledSignal sig k)| * 2 < 1 * (F64.unitsPerOne : Int))

/-- Settles O51: the thresholds of `sampleOfScaled`, with the scaled signal in units under REF64. -/
theorem clampActsOnlyAtTop : Obligations.ClampActsOnlyAtTop := by
  refine ⟨fun sig k h hk => ?_, fun sig k hlow hhigh hk => ?_⟩
  · have habs := abs_units_scaledSignal_le h hk
    have hrange : |F64.toReal (scaledSignal sig k)| ≤ 128 := by
      rw [F64.abs_toReal, div_le_iff₀ F64.unitsPerOne_pos_real]
      exact_mod_cast habs
    dsimp only
    rw [quantize_eq, roundHa_eq_roundHaReal _ F64.unitsPerOne_pos, ← F64.toReal_eq,
      ← F64.half_le_toReal_iff, ← F64.half_le_toReal_iff]
    exact ⟨habs, lt_128_add_roundHaReal_iff _, sampleOfScaled_eq_255_iff _,
      roundHaReal_in_range hrange⟩
  · have habs := abs_scaledReal_le (abs_le.2 ⟨hlow, hhigh⟩) hk
    refine ⟨habs, ?_, ?_, ?_, roundHaReal_in_range habs⟩
    · rw [lt_128_add_roundHaReal_iff]; norm_num
    · constructor <;> intro <;> linarith
    · rw [quantizeReal_eq, sampleOfScaled_eq_255_iff]; norm_num

/-- At full scale the scaled signal is `sig * 128`. -/
theorem quantize_full {sig : F64} (h : F64.inUnit sig = true) {n : ℤ}
    (hn : 128 * F64.units sig = n * F64.unitsPerOne) :
    quantize sig 0x10000#32 = sampleOfScaled n := by
  rw [quantize_eq, F64.toReal_eq, units_scaledSignal_full h, hn, Int.cast_mul, Int.cast_natCast,
    mul_div_cancel_right₀ _ F64.unitsPerOne_pos_real.ne']

theorem quantizeReal_full {sig : ℝ} {n : ℤ} (hn : sig * 128 = n) :
    quantizeReal sig 0x10000#32 = sampleOfScaled n := by
  rw [quantizeReal_eq, hn]
  norm_num

/-- Every multiple of 1/128 in [-1, 1] is a binary64 value. -/
theorem exists_inUnit_of_128ths {n : ℤ} (h : n.natAbs ≤ 128) :
    ∃ sig, F64.inUnit sig = true ∧ 128 * F64.units sig = n * F64.unitsPerOne := by
  obtain ⟨m, hm, hfin⟩ := F64.exists_magUnits_eq_div (q := n.natAbs) (e := 7) (by omega) (by decide)
  have hlt := hfin.trans F64.infMag_lt
  refine ⟨F64.pack (decide (n < 0)) m, ?_, ?_⟩
  · rw [F64.inUnit_iff, F64.mag_pack _ hlt]
    have := Nat.mul_le_mul_right F64.unitsPerOne h
    omega
  · calc 128 * F64.units (F64.pack (decide (n < 0)) m)
        = 128 * F64.signed (decide (n < 0)) (F64.magUnits m) := by rw [F64.units_pack _ hlt]; rfl
      _ = F64.signed (decide (n < 0)) (F64.magUnits m * 2 ^ 7) := by
          rw [F64.signed_mul_natCast, mul_comm]; rfl
      _ = n * F64.unitsPerOne := by rw [hm, F64.signed_mul_natCast, F64.signed_natAbs]

theorem sampleOfScaled_extremes :
    sampleOfScaled (128 : ℤ) = 255#8 ∧ sampleOfScaled (-128 : ℤ) = 0#8 := by
  constructor <;> rw [sampleOfScaled, roundHaReal_intCast] <;> rfl

/-- Settles O52: at full scale the sample `b` is that of the signal `(b - 128) / 128`. -/
theorem quantizerReachesEverySample : Obligations.QuantizerReachesEverySample := by
  obtain ⟨htop, hbottom⟩ := sampleOfScaled_extremes
  have hone : F64.units 0x3FF0000000000000#64 = F64.unitsPerOne :=
    congrArg Int.ofNat F64.magUnits_oneMag
  have hneg : F64.units 0xBFF0000000000000#64 = -F64.unitsPerOne :=
    hone ▸ F64.units_flipSign 0x3FF0000000000000#64
  refine ⟨fun b => ?_, ?_, ?_, fun b => ?_, ?_, ?_⟩
  · have := b.isLt
    obtain ⟨sig, hunit, hsig⟩ := exists_inUnit_of_128ths (n := b.toNat - 128) (by omega)
    exact ⟨sig, hunit, (quantize_full hunit hsig).trans (sampleOfScaled_toNat_sub b)⟩
  · rw [quantize_full (n := 128) (by decide) (by rw [hone]), htop]
  · rw [quantize_full (n := -128) (by decide) (by rw [hneg]; ring), hbottom]
  · have hb : (b.toNat : ℝ) < 256 := mod_cast b.isLt
    have hb0 : (0 : ℝ) ≤ b.toNat := Nat.cast_nonneg _
    refine ⟨(b.toNat - 128) / 128, by linarith, by linarith, ?_⟩
    rw [quantizeReal_full (n := b.toNat - 128) (by push_cast; ring), sampleOfScaled_toNat_sub]
  · rw [quantizeReal_full (n := 128) (by norm_num), htop]
  · rw [quantizeReal_full (n := -128) (by norm_num), hbottom]

/-- Settles O53: rounding to binary64, `round_ha` and the clamp are monotone. -/
theorem quantizerIsMonotone : Obligations.QuantizerIsMonotone := by
  refine ⟨fun a b k ha hb _ hab => ⟨?_, ?_⟩, fun a b k hab => ⟨?_, ?_⟩⟩
  · rw [quantize_eq, quantize_eq, F64.toReal_eq, F64.toReal_eq]
    refine sampleOfScaled_mono (div_le_div_of_nonneg_right ?_ F64.unitsPerOne_pos_real.le)
    exact_mod_cast units_scaledSignal_mono ha hb hab k
  · rintro rfl
    exact quantize_scale_zero ha
  · rw [quantizeReal_eq, quantizeReal_eq]
    exact sampleOfScaled_mono (by gcongr)
  · rintro rfl
    exact quantizeReal_scale_zero a

end Sys2Proof

/-! # The sample commands (43_sample_commands.md R180 to R187)

A sample command whose checks pass commits its sample, so its whole next state is `commit` of that
sample; what the sample is follows from the oscillator, the mixer and the quantizer. -/

namespace Sys2Proof.Machine

/-! ### What a sample command answers -/

/-- The whole next state of a commit. The sample is a variable: against one written out, the kernel
would unfold the datapath. -/
theorem commit_fields (sample : Byte) (inc : Bool) (s : State) :
    commit sample inc s = { s with
      sampleOut := sample
      out := s.out ++ [sample]
      sampleCount := s.sampleCount + 1#32
      index := if inc then s.index + 1#32 else s.index } := rfl

theorem add_one_eq_ofNat_mod (v : Word) : v + 1#32 = BitVec.ofNat 32 ((v.toNat + 1) % 2 ^ 32) := by
  apply BitVec.eq_of_toNat_eq
  simp [BitVec.toNat_add]

/-- The counters of a commit count modulo 2^32 (R181, R186, R187). -/
theorem commit_eq_mod (sample : Byte) (inc : Bool) (s : State) :
    commit sample inc s = { s with
      sampleOut := sample
      out := s.out ++ [sample]
      sampleCount := BitVec.ofNat 32 ((s.sampleCount.toNat + 1) % 2 ^ 32)
      index := if inc then BitVec.ofNat 32 ((s.index.toNat + 1) % 2 ^ 32) else s.index } := by
  rw [commit_fields, add_one_eq_ofNat_mod, add_one_eq_ofNat_mod]

section
variable {s : State} (inc : Bool)

/-- A running block whose checks pass commits the sample (R180). -/
theorem unlessHalted_sampleCommand_of_pass {codes : List Cause} (hrun : s.halted = false)
    (hpass : codes = []) (sample : Byte) (w : Word) :
    unlessHalted s (sampleCommand codes sample w inc s) = commit sample inc s := by
  rw [unlessHalted_of_running hrun, sampleCommand, if_pos hpass]

theorem exec_saw_of_running (hrun : s.halted = false) :
    exec (.saw inc) s = .next (commit (sawSample s) inc s) :=
  congrArg Host.Outcome.next (unlessHalted_sampleCommand_of_pass inc hrun rfl _ _)

theorem exec_silence_of_running (hrun : s.halted = false) :
    exec (.silence inc) s = .next (commit Config.silence inc s) :=
  congrArg Host.Outcome.next (unlessHalted_sampleCommand_of_pass inc hrun rfl _ _)

theorem exec_dual_of_ready (h : DualReady s) :
    exec (.dual inc) s = .next (commit (dualSample s) inc s) := by
  obtain ⟨hrun, hset⟩ := h
  exact congrArg Host.Outcome.next
    (unlessHalted_sampleCommand_of_pass inc hrun ((dualCauses_eq_nil s).2 hset) _ _)

theorem exec_single_of_ready (h : SingleReady s) :
    exec (.single inc) s = .next (commit (singleSample s) inc s) := by
  obtain ⟨hrun, hset⟩ := h
  exact congrArg Host.Outcome.next
    (unlessHalted_sampleCommand_of_pass inc hrun ((singleCauses_eq_nil s).2 hset) _ _)

end

/-- `i mod 256` is INDEX[7:0] (R184). -/
theorem sawSample_eq (s : State) : sawSample s = BitVec.ofNat 8 (s.index.toNat % 256) := by
  apply BitVec.eq_of_toNat_eq
  simp [sawSample]

/-- Settles O19: SAW makes no check, so a running block commits. -/
theorem sawEmitsIndexModulo256 : Obligations.SawEmitsIndexModulo256 := by
  refine ⟨rfl, rfl, fun s inc hrun => ?_⟩
  rw [exec_saw_of_running inc hrun, commit_eq_mod, sawSample_eq]

/-- Settles O20: SILENCE makes no check, so a running block commits. -/
theorem silenceEmits128 : Obligations.SilenceEmits128 := by
  refine ⟨rfl, rfl, fun s inc hrun => ?_⟩
  rw [exec_silence_of_running inc hrun, commit_eq_mod]
  rfl

/-- Settles O21: DUAL's sample is by definition the quantized mix of its two tones. -/
theorem dualEmitsQuantizedMix : Obligations.DualEmitsQuantizedMix := by
  intro s inc hready
  rw [exec_dual_of_ready inc hready, commit_eq_mod]
  rfl

/-- Settles O22: SINGLE's sample is by definition its quantized tone. -/
theorem singleEmitsQuantizedTone : Obligations.SingleEmitsQuantizedTone := by
  intro s inc hready
  rw [exec_single_of_ready inc hready, commit_eq_mod]
  rfl

/-! ### A command does one of four things -/

section
variable {s : State} (inc : Bool)

/-- A running block commits the sample, or a check fails and it records a fault (R180). -/
theorem unlessHalted_sampleCommand_cases (hrun : s.halted = false) (codes : List Cause)
    (sample : Byte) (w : Word) :
    unlessHalted s (sampleCommand codes sample w inc s) = commit sample inc s ∨
    codes ≠ [] ∧ unlessHalted s (sampleCommand codes sample w inc s) = raiseFault codes w s := by
  rw [unlessHalted_of_running hrun]
  exact (sampleCommand_cases codes sample w inc s).imp_left And.right

theorem exec_dual_cases (hrun : s.halted = false) :
    exec (.dual inc) s = .next (commit (dualSample s) inc s) ∨
    dualCauses s ≠ [] ∧
      exec (.dual inc) s = .next (raiseFault (dualCauses s) (encode (.dual inc)) s) :=
  (unlessHalted_sampleCommand_cases inc hrun _ _ _).imp (congrArg _) (And.imp_right (congrArg _))

theorem exec_single_cases (hrun : s.halted = false) :
    exec (.single inc) s = .next (commit (singleSample s) inc s) ∨
    singleCauses s ≠ [] ∧
      exec (.single inc) s = .next (raiseFault (singleCauses s) (encode (.single inc)) s) :=
  (unlessHalted_sampleCommand_cases inc hrun _ _ _).imp (congrArg _) (And.imp_right (congrArg _))

end

/-- Settles O29: on a halted block only SRST does anything; on a running one a sample command
commits, or records a fault where it makes checks. -/
theorem commandsDoOneOfFourThings : Obligations.CommandsDoOneOfFourThings := by
  intro i s
  cases hh : s.halted with
  | true =>
    by_cases hi : i = .srst
    · subst hi
      exact ⟨_, rfl, .inr (.inr (.inr ⟨rfl, resetRegisters_eq s⟩))⟩
    · exact ⟨s, exec_of_halted hh hi, .inl ⟨rfl, .inl rfl⟩⟩
  | false =>
    cases i with
    | nop => exact ⟨s, rfl, .inl ⟨rfl, .inr rfl⟩⟩
    | srst => exact ⟨_, rfl, .inr (.inr (.inr ⟨rfl, resetRegisters_eq s⟩))⟩
    | saw inc =>
      exact ⟨_, exec_saw_of_running inc hh,
        .inr (.inl ⟨rfl, ⟨inc, .inr (.inr (.inl rfl))⟩, _, commit_fields _ inc s⟩)⟩
    | silence inc =>
      exact ⟨_, exec_silence_of_running inc hh,
        .inr (.inl ⟨rfl, ⟨inc, .inr (.inr (.inr rfl))⟩, _, commit_fields _ inc s⟩)⟩
    | dual inc =>
      rcases exec_dual_cases inc hh with hs | ⟨hfail, hs⟩
      · exact ⟨_, hs, .inr (.inl ⟨rfl, ⟨inc, .inl rfl⟩, _, commit_fields _ inc s⟩)⟩
      · exact ⟨_, hs, .inr (.inr (.inl ⟨rfl, raiseFault_halted hfail _ s, ⟨inc, .inl rfl⟩, rfl⟩))⟩
    | single inc =>
      rcases exec_single_cases inc hh with hs | ⟨hfail, hs⟩
      · exact ⟨_, hs, .inr (.inl ⟨rfl, ⟨inc, .inr (.inl rfl)⟩, _, commit_fields _ inc s⟩)⟩
      · exact ⟨_, hs, .inr (.inr (.inl ⟨rfl, raiseFault_halted hfail _ s, ⟨inc, .inr rfl⟩, rfl⟩))⟩

/-! ### The signals and samples of DUAL and SINGLE (R182, R183) -/

section
variable {f g : Freq} {s : State}

theorem toneOf_inUnit (hf : f ≠ 0#16) (hr : s.sampleRate ≠ 0#32) :
    F64.inUnit (toneOf f s) = true :=
  toneStaysInUnitRange.1 _ _ _ _ (everySineIsAdmitted s.sineRom) hf hr

theorem toneOf_of_index_zero (hi : s.index = 0#32) (hf : f ≠ 0#16) (hr : s.sampleRate ≠ 0#32) :
    toneOf f s = 0#64 := by
  rw [toneOf, hi]
  exact (toneStartsAtZero _ f s.sampleRate (everySineIsAdmitted s.sineRom) hf hr).1

/-- The tone is silent at INDEX 0, and the quantizer at AMP_SCALE 0. -/
theorem quantize_toneOf_eq_silence (h : s.index = 0#32 ∨ s.ampScale = 0#32) (hf : f ≠ 0#16)
    (hr : s.sampleRate ≠ 0#32) : quantize (toneOf f s) s.ampScale = 128#8 := by
  rcases h with hi | hk
  · rw [toneOf_of_index_zero hi hf hr, quantize_of_mag_eq_zero rfl]
  · rw [hk, quantize_scale_zero (toneOf_inUnit hf hr)]

/-- Two silent tones mix to silence, and at AMP_SCALE 0 so do any two. -/
theorem quantize_mix_toneOf_eq_silence (h : s.index = 0#32 ∨ s.ampScale = 0#32) (hf : f ≠ 0#16)
    (hg : g ≠ 0#16) (hr : s.sampleRate ≠ 0#32) :
    quantize (mix (toneOf f s) (toneOf g s)) s.ampScale = 128#8 := by
  rcases h with hi | hk
  · rw [toneOf_of_index_zero hi hf hr, toneOf_of_index_zero hi hg hr, mix_self (by decide),
      quantize_of_mag_eq_zero rfl]
  · rw [hk, quantize_scale_zero (mix_inUnit (toneOf_inUnit hf hr) (toneOf_inUnit hg hr))]

end

theorem dualSample_swap (s : State) :
    dualSample { s with freqA := s.freqB, freqB := s.freqA } = dualSample s :=
  congrArg (quantize · s.ampScale) (mix_comm (toneOf s.freqB s) (toneOf s.freqA s))

/-- Equal tones mix to themselves. -/
theorem dualSample_eq_singleSample {s : State} (hAB : s.freqA = s.freqB) (hA : s.freqA ≠ 0#16)
    (hr : s.sampleRate ≠ 0#32) : dualSample s = singleSample s := by
  rw [dualSample, ← hAB, mix_self (toneOf_inUnit hA hr), singleSample]

/-- Settles O47: the mixer commutes and keeps equal tones. -/
theorem dualSymmetryAndSingle : Obligations.DualSymmetryAndSingle := by
  rintro s inc ⟨hrun, hr, hA, hB⟩
  refine ⟨⟨_, exec_dual_of_ready inc ⟨hrun, hr, hA, hB⟩, ?_⟩, fun hAB => ?_⟩
  · rw [exec_dual_of_ready inc (s := { s with freqA := s.freqB, freqB := s.freqA })
      ⟨hrun, hr, hB, hA⟩, dualSample_swap]
    rfl
  · rw [exec_dual_of_ready inc ⟨hrun, hr, hA, hB⟩, exec_single_of_ready inc ⟨hrun, hr, hA⟩,
      dualSample_eq_singleSample hAB hA hr]

/-- Settles O48: both commands commit, and both signals quantize to silence. -/
theorem zeroPhaseOrScaleEmitsSilence : Obligations.ZeroPhaseOrScaleEmitsSilence := by
  refine fun s inc h => ⟨fun ⟨hrun, hr, hA, hB⟩ => ?_, fun ⟨hrun, hr, hA⟩ => ?_⟩
  · have hsample : dualSample s = 128#8 := quantize_mix_toneOf_eq_silence h hA hB hr
    exact ⟨_, exec_dual_of_ready inc ⟨hrun, hr, hA, hB⟩, hsample, by rw [commit_out, hsample]⟩
  · have hsample : singleSample s = 128#8 := quantize_toneOf_eq_silence h hA hr
    exact ⟨_, exec_single_of_ready inc ⟨hrun, hr, hA⟩, hsample, by rw [commit_out, hsample]⟩

/-! ### The worked examples (R182, R183) -/

/-- A block at the worked examples' rate and at full scale, with the reference sine. -/
def exampleBlock (fA fB : Freq) (i : Word) : State :=
  { State.reset with
    sampleRate := 8000#32, ampScale := 0x10000#32, freqA := fA, freqB := fB, index := i }

theorem dualSample_example : dualSample (exampleBlock 697#16 1209#16 1#32) = 213#8 := by
  decide +kernel

theorem singleSample_example : singleSample (exampleBlock 2000#16 0#16 3#32) = 0#8 := by
  decide +kernel

/-- Settles O23: both examples commit the sample that the datapath computes. -/
theorem workedExamplesOfTheCommands : Obligations.WorkedExamplesOfTheCommands := by
  have hdual := exec_dual_of_ready true (s := exampleBlock 697#16 1209#16 1#32) (by decide)
  have hsingle := exec_single_of_ready false (s := exampleBlock 2000#16 0#16 3#32) (by decide)
  rw [dualSample_example] at hdual
  rw [singleSample_example] at hsingle
  exact ⟨⟨_, hdual, rfl, rfl, rfl, rfl⟩, _, hsingle, rfl, rfl, rfl⟩

end Sys2Proof.Machine

/-! # The control commands (44_control_commands.md R210) -/

namespace Sys2Proof.Machine

theorem encode_nop : encode .nop = 0x00000000#32 := by decide

/-- NOP makes no test, not even of HALTED. -/
theorem exec_nop (s : State) : exec .nop s = .next s := rfl

/-- Settles O17: all fields of the word are 0, and NOP's meaning is the state it is given. -/
theorem nopChangesNothing : Obligations.NopChangesNothing :=
  ⟨encode_nop, exec_nop⟩

end Sys2Proof.Machine

/-! # Faults and the halted state (60_exceptions.md R236 to R251)

Fault entry is one operation, so what it records is said of its list of causes; what a step can do
to a running block and to a halted one is read off the cases of a step. -/

namespace Sys2Proof.Machine

/-! ### What fault entry records (R236) -/

/-- The sticky bit of a cause (R231). -/
def causeBit (t : Status) : Cause → Bool
  | .badCmd => t.badCmd
  | .zeroRate => t.zeroRate
  | .pair => t.pair
  | .zeroFreq => t.zeroFreq

theorem causeBit_setCause (t : Status) (c d : Cause) :
    causeBit (setCause t d) c = true ↔ causeBit t c = true ∨ c = d := by
  cases d <;> cases c <;> simp [setCause, causeBit]

theorem causeBit_foldl_setCause (codes : List Cause) (t : Status) (c : Cause) :
    causeBit (codes.foldl setCause t) c = true ↔ causeBit t c = true ∨ c ∈ codes := by
  induction codes generalizing t with
  | nil => simp
  | cons d rest ih => rw [List.foldl_cons, ih, causeBit_setCause, List.mem_cons, or_assoc]

theorem causeBit_recordCauses (codes : List Cause) (c : Cause) :
    causeBit (recordCauses codes Status.clear) c = true ↔ c ∈ codes := by
  have hclear : ¬causeBit Status.clear c = true := by cases c <;> decide
  have hcode : causeBit (recordCauses codes Status.clear) c =
      causeBit (codes.foldl setCause Status.clear) c := by cases c <;> rfl
  rw [hcode, causeBit_foldl_setCause, or_iff_right hclear]

theorem causeCode_ne_zero (c : Cause) : causeCode c ≠ 0#4 := by cases c <;> decide

theorem exists_minCode_eq {codes : List Cause} (h : codes ≠ []) :
    ∃ c ∈ codes, minCode codes = causeCode c := by
  induction codes with
  | nil => exact absurd rfl h
  | cons d rest ih =>
    rw [minCode]
    split_ifs with hmin
    · have hrest : rest ≠ [] := by rintro rfl; exact hmin.1 rfl
      obtain ⟨c, hc, hcode⟩ := ih hrest
      exact ⟨c, List.mem_cons_of_mem d hc, hcode⟩
    · exact ⟨d, List.mem_cons_self, rfl⟩

theorem minCode_ne_zero {codes : List Cause} (h : codes ≠ []) : minCode codes ≠ 0#4 := by
  obtain ⟨c, -, hcode⟩ := exists_minCode_eq h
  exact hcode ▸ causeCode_ne_zero c

theorem minCode_le {codes : List Cause} {c : Cause} (h : c ∈ codes) :
    minCode codes ≤ causeCode c := by
  induction codes with
  | nil => cases h
  | cons d rest ih =>
    rw [minCode]
    split_ifs with hmin
    · rcases List.mem_cons.1 h with rfl | hc
      · exact BitVec.le_of_lt hmin.2
      · exact ih hc
    · rcases List.mem_cons.1 h with rfl | hc
      · exact BitVec.le_refl _
      · have hle : causeCode d ≤ minCode rest :=
          BitVec.not_lt.1 fun hlt => hmin ⟨minCode_ne_zero (List.ne_nil_of_mem hc), hlt⟩
        exact BitVec.le_trans hle (ih hc)

/-- Settles O24: on a running block the causes alone decide what STATUS becomes. -/
theorem faultEntryRecordsCauses : Obligations.FaultEntryRecordsCauses := by
  intro codes w s hne hrun
  have hbit := causeBit_recordCauses codes
  refine ⟨recordCauses codes Status.clear, ?_, hbit .badCmd, hbit .zeroRate, hbit .pair,
    hbit .zeroFreq, exists_minCode_eq hne, fun c => minCode_le, raiseFault_halted hne w s⟩
  rw [raiseFault, recordCauses_of_running hrun]

/-! ### The causes of DUAL and SINGLE (R233 to R235, R238) -/

theorem dualCauses_eq (s : State) :
    dualCauses s = (if s.sampleRate = 0#32 then [.zeroRate] else []) ++
      (if s.freqA = 0#16 ∧ s.freqB = 0#16 then [.zeroFreq]
        else if s.freqA = 0#16 ∨ s.freqB = 0#16 then [.pair, .zeroFreq] else []) := by
  by_cases hr : s.sampleRate = 0#32 <;> by_cases hA : s.freqA = 0#16 <;>
    by_cases hB : s.freqB = 0#16 <;> simp [dualCauses, causesOf, hr, hA, hB]

theorem singleCauses_eq (s : State) :
    singleCauses s = (if s.sampleRate = 0#32 then [.zeroRate] else []) ++
      (if s.freqA = 0#16 then [.zeroFreq] else []) := by
  by_cases hr : s.sampleRate = 0#32 <;> by_cases hA : s.freqA = 0#16 <;>
    simp [singleCauses, causesOf, hr, hA]

/-- A running block with a failed check records the fault, whatever the sample (R237). -/
theorem unlessHalted_sampleCommand_of_fail {codes : List Cause} {s : State}
    (hrun : s.halted = false) (hfail : codes ≠ []) (sample : Byte) (w : Word) (inc : Bool) :
    unlessHalted s (sampleCommand codes sample w inc s) =
      { s with status := recordCauses codes Status.clear, faultCmd := w } := by
  rw [unlessHalted_of_running hrun, sampleCommand, if_neg hfail, raiseFault,
    recordCauses_of_running hrun]

/-- Settles O25: each row of the table is the word of the causes its registers raise. -/
theorem simultaneousCausesRecorded : Obligations.SimultaneousCausesRecorded := by
  refine fun s inc hrun => ⟨fun h => ?_, fun h => ?_, fun w rest hr hi hw => ?_⟩
  · have hfail : dualCauses s ≠ [] := by rw [Ne, dualCauses_eq_nil]; tauto
    refine ⟨_, congrArg _ (unlessHalted_sampleCommand_of_fail hrun hfail _ _ inc), ?_⟩
    rw [dualCauses_eq] at hfail ⊢
    split_ifs at hfail ⊢
    on_goal 6 => exact absurd rfl hfail
    all_goals rfl
  · have hfail : singleCauses s ≠ [] := by rw [Ne, singleCauses_eq_nil]; tauto
    refine ⟨_, congrArg _ (unlessHalted_sampleCommand_of_fail hrun hfail _ _ inc), ?_⟩
    rw [singleCauses_eq] at hfail ⊢
    split_ifs at hfail ⊢
    on_goal 4 => exact absurd rfl hfail
    all_goals rfl
  · refine ⟨recordCauses [.badCmd] Status.clear, ?_, rfl⟩
    rw [step, takeInput_write hr hi rfl, performWrite_cmd, runCommand_of_not_command hw,
      unlessHalted_of_running ((withInputs_halted rest s).trans hrun), raiseFault,
      withInputs_status, recordCauses_of_running hrun]
    rfl

/-! ### Steps of a running block (R237) -/

/-- Driving `rst` sets its level, or, at the release of an asserted one, resets
(70_reset_and_hazards.md R270). -/
theorem driveRst_cases (level : Bool) (s : State) :
    (∃ r, driveRst level s = { s with rst := r }) ∨
    (level = false ∧ s.rst = true ∧ driveRst level s = resetRegisters { s with rst := false }) := by
  unfold driveRst
  split_ifs with hlevel hrst
  · exact .inl ⟨true, rfl⟩
  · exact .inr ⟨by simpa using hlevel, hrst, rfl⟩
  · exact .inl ⟨s.rst, rfl⟩

/-- A command leaves a running block running, or raises a fault and does no more. -/
theorem exec_of_running_cases {i : Instr} {s t : State} (hrun : s.halted = false)
    (h : exec i s = .next t) : t.halted = false ∨ ∃ codes, t = raiseFault codes (encode i) s := by
  rcases exec_cases h with ⟨-, rfl⟩ | ⟨-, rfl⟩ | ⟨sample, rfl⟩
  · exact .inl hrun
  · exact .inl rfl
  · rcases unlessHalted_sampleCommand_cases (incField i) hrun (causesOfWord (encode i) s) sample
      (encode i) with hs | ⟨-, hs⟩
    · exact .inl (hs ▸ hrun)
    · exact .inr ⟨_, hs⟩

/-- A step leaves a running block running, or takes its input and raises a fault, no more. -/
theorem step_of_running_cases {s t : State} (hrun : s.halted = false) (h : step s = .next t) :
    t.halted = false ∨ ∃ codes w rest, t = raiseFault codes w (withInputs rest s) := by
  have hrun' (rest : List Input) : (withInputs rest s).halted = false := hrun
  rcases takeInput_cases h with ⟨-, rfl⟩ | ⟨o, rest, -, -, rfl⟩ | ⟨o, v, rest, -, -, -, rfl⟩ |
    ⟨w, i, rest, -, -, -, hexec⟩ | ⟨w, e, rest, -, -, -, rfl⟩ | ⟨level, rest, -, rfl⟩
  · exact .inl hrun
  · exact .inl hrun
  · rw [unlessHalted_of_running (hrun' rest), writeReg_halted]
    exact .inl hrun
  · exact (exec_of_running_cases (hrun' rest) hexec).imp_right fun ⟨codes, ht⟩ => ⟨codes, _, _, ht⟩
  · rw [unlessHalted_of_running (hrun' rest)]
    exact .inr ⟨_, w, rest, rfl⟩
  · rcases driveRst_cases level (withInputs rest s) with ⟨r, hd⟩ | ⟨-, -, hd⟩ <;> rw [hd]
    · exact .inl hrun
    · exact .inl rfl

/-- Settles O26: only fault entry halts a running block. -/
theorem faultsArePrecise : Obligations.FaultsArePrecise := by
  intro s t h hrun hhalt
  rcases step_of_running_cases hrun h with hrun' | ⟨codes, w, rest, rfl⟩
  · simp [hhalt] at hrun'
  · rfl

/-! ### Steps of a halted block (R239, R240) -/

/-- Settles O28: of the things a step can do, a halted block lets only SRST and the release of `rst`
change a register. -/
theorem haltEndsOnlyByReset : Obligations.HaltEndsOnlyByReset := by
  intro s t h hh
  have hh' (rest : List Input) : (withInputs rest s).halted = true := hh
  rcases takeInput_cases h with ⟨-, rfl⟩ | ⟨o, rest, -, -, rfl⟩ | ⟨o, v, rest, -, -, -, rfl⟩ |
    ⟨w, i, rest, hr, hi, hd, hexec⟩ | ⟨w, e, rest, -, -, -, rfl⟩ | ⟨level, rest, hn, rfl⟩
  · exact .inl rfl
  · exact .inl rfl
  · rw [unlessHalted_of_halted (hh' rest)]
    exact .inl rfl
  · by_cases hsrst : i = .srst
    · subst hsrst
      cases hexec
      rw [← encode_of_decode hd] at hi
      refine .inr ⟨?_, .inr ⟨hr, hi⟩⟩
      rw [resetRegisters_eq, withInputs_rst, hr]
      rfl
    · rw [exec_of_halted (hh' rest) hsrst] at hexec
      cases hexec
      exact .inl rfl
  · rw [unlessHalted_of_halted (hh' rest)]
    exact .inl rfl
  · rcases driveRst_cases level (withInputs rest s) with ⟨r, hd⟩ | ⟨rfl, hr, hd⟩ <;> rw [hd]
    · exact .inl rfl
    · exact .inr ⟨rfl, .inl ⟨hr, nextInput_rst_mem hn⟩⟩

/-! ### Every access completes (R251) -/

/-- An access in the interface is an aligned read of a word, or an aligned write of a word
(20_memory.md R71). -/
theorem access_cases {a : Access} (h : a.wellFormed = true) :
    (∃ o, a = memRead o ∧ o.toNat % 4 = 0) ∨ (∃ o v, a = memWrite o v ∧ o.toNat % 4 = 0) := by
  simp only [Access.wellFormed, Access.isWord, Access.isAligned, Bool.and_eq_true, beq_iff_eq] at h
  obtain ⟨hwidth, haligned⟩ := h
  cases a with
  | read o n =>
    obtain rfl : n = 4 := hwidth
    exact .inl ⟨o, rfl, haligned⟩
  | write o lanes =>
    obtain ⟨b0, b1, b2, b3, rfl⟩ := List.length_eq_four.1 hwidth
    exact .inr ⟨o, _, congrArg _ (lanes_of_wordOfLanes rfl), haligned⟩

/-- A command completes and touches no input still to come. -/
theorem exec_completes (i : Instr) (s : State) : ∃ t, exec i s = .next t ∧ t.inputs = s.inputs := by
  obtain ⟨t, hexec, ⟨rfl, -⟩ | ⟨-, -, sample, rfl⟩ | ⟨-, -, -, ht⟩ | ⟨-, rfl⟩⟩ :=
    commandsDoOneOfFourThings i s
  · exact ⟨t, hexec, rfl⟩
  · exact ⟨_, hexec, rfl⟩
  · exact ⟨t, hexec, by rw [ht]⟩
  · exact ⟨_, hexec, rfl⟩

/-- Every word written to CMD completes, a command or not. -/
theorem runCommand_completes (w : Word) (s : State) :
    ∃ t, runCommand exec w s = .next t ∧ t.inputs = s.inputs := by
  rw [runCommand]
  split
  · exact exec_completes _ s
  · refine ⟨_, rfl, ?_⟩
    rcases unlessHalted_cases s (raiseFault [.badCmd] w s) with hu | hu <;> simp [hu]

/-- Settles O14: reads and register writes touch no field of the fault record, and every command
completes. -/
theorem accessesCompleteWithoutFault : Obligations.AccessesCompleteWithoutFault := by
  intro s a rest hr hi hwf
  rcases access_cases hwf with ⟨o, rfl, ho⟩ | ⟨o, v, rfl, ho⟩
  · exact ⟨_, step_memRead hr hi ho, rfl, fun _ => ⟨rfl, rfl⟩⟩
  by_cases hcmd : o = 0x00#6
  · subst hcmd
    obtain ⟨t, hrun, hrest⟩ := runCommand_completes v (withInputs rest s)
    refine ⟨t, ?_, hrest, fun hne => absurd rfl (hne v)⟩
    rw [step, takeInput_write hr hi ho, performWrite_cmd, hrun]
  · refine ⟨_, step_memWrite hr hi ho hcmd, ?_⟩
    rcases unlessHalted_cases (withInputs rest s) (writeReg o v (withInputs rest s)) with
      hu | hu <;> simp [hu]

/-! ### A block that takes no input (R250, 70_reset_and_hazards.md R270) -/

/-- While `rst` is asserted accesses wait, however many there are (log entry 4). -/
theorem nextInput_of_accesses {l : List Input} (h : ∀ x ∈ l, ∃ a, x = .access a) :
    nextInput true l = none := by
  induction l with
  | nil => rfl
  | cons x l ih =>
    rw [List.forall_mem_cons] at h
    obtain ⟨⟨a, rfl⟩, hl⟩ := h
    rw [nextInput, if_pos rfl, ih hl]
    rfl

/-- With no input to take a step changes nothing. -/
theorem step_of_no_input {s : State} (h : nextInput s.rst s.inputs = none) : step s = .next s := by
  rw [step, takeInput, h]

/-- Settles O8: in both cases there is no input to take. -/
theorem idleOrHeldBlockStays : Obligations.IdleOrHeldBlockStays := by
  refine fun s => ⟨fun hi => step_of_no_input ?_, fun hr hwait => step_of_no_input ?_⟩
  · rw [hi]; rfl
  · rw [hr]; exact nextInput_of_accesses hwait

end Sys2Proof.Machine

/-! # The resets (70_reset_and_hazards.md R270 to R273) -/

namespace Sys2Proof.Machine

/-! ### The first state (R271, R273) -/

/-- Every register reads 0 in the first state but SAMPLE_OUT, which reads the silence byte
(10_state.md R31). -/
theorem readReg_reset (r : Reg) :
    readReg State.reset r = if r = .sampleOut then 0x00000080#32 else 0x00000000#32 := by
  cases r <;> rfl

theorem readOffset_regOffset_reset (r : Reg) :
    readOffset (regOffset r) State.reset =
      if r = .sampleOut then 0x00000080#32 else 0x00000000#32 := by
  rw [readOffset_regOffset, readReg_reset]

/-- The `sample_out` port carries SAMPLE_OUT. -/
theorem resetRegisters_sampleOutPort (s : State) : (resetRegisters s).sampleOutPort = 0x80#8 :=
  resetRegisters_sampleOut s

/-- The `fault` port is HALTED, and a reset clears every fault bit. -/
theorem resetRegisters_faultPort (s : State) : (resetRegisters s).faultPort = false :=
  resetRegisters_halted s

/-- A reset of the first state finds every register at its reset value already. -/
theorem resetRegisters_reset : resetRegisters State.reset = State.reset := rfl

/-- Settles O15: the offsets of the statement are those of the ten registers. -/
theorem resetStateAsTheSpecSays : Obligations.ResetStateAsTheSpecSays := by
  have hread := readOffset_regOffset_reset
  exact ⟨hread .cmd, hread .status, hread .faultCmd, hread .sampleRate, hread .ampScale,
    hread .freqA, hread .freqB, hread .index, hread .sampleOut, hread .sampleCount, rfl,
    resetRegisters_sampleOutPort State.reset, resetRegisters_faultPort State.reset⟩

/-- Settles O32: any reset establishes the invariant, and the first state is one after a reset. -/
theorem invariantHoldsAtReset : Obligations.InvariantHoldsAtReset := by
  rw [Obligations.InvariantHoldsAtReset, ← resetRegisters_reset]
  exact blockInv_resetRegisters State.reset

/-! ### The command SRST (R271, R272) -/

theorem encode_srst : encode .srst = 0x0000000F#32 := by decide

/-- SRST makes no test, not even of HALTED. -/
theorem exec_srst (s : State) : exec .srst s = .next (resetRegisters s) := rfl

/-- Settles O18: SRST is the reset of the registers, which keeps every other field. -/
theorem srstResetsRegistersKeepsOut : Obligations.SrstResetsRegistersKeepsOut := by
  refine ⟨encode_srst, fun s => ?_⟩
  rw [← resetRegisters_eq s]
  exact ⟨exec_srst s, resetRegisters_sampleOutPort s, resetRegisters_faultPort s⟩

/-! ### The input `rst` (R270) -/

/-- A change of `rst` is taken past the accesses that wait while `rst` is asserted, and they go on
waiting, in their order (log entry 4). -/
theorem nextInput_asserted (waiting : List Access) (level : Bool) (rest : List Input) :
    nextInput true (waiting.map .access ++ .rst level :: rest) =
      some (.rst level, waiting.map .access ++ rest) := by
  induction waiting with
  | nil => rfl
  | cons a waiting ih =>
    rw [List.map_cons, List.cons_append, nextInput, if_pos rfl, ih]
    rfl

/-- A step that takes a change of `rst` follows it. -/
theorem step_of_rst {s : State} {level : Bool} {rest : List Input}
    (h : nextInput s.rst s.inputs = some (.rst level, rest)) :
    step s = .next (driveRst level (withInputs rest s)) := by
  rw [step, takeInput, h]

theorem driveRst_assert (s : State) : driveRst true s = { s with rst := true } := rfl

/-- The reset takes effect when an asserted `rst` is released. -/
theorem driveRst_release {s : State} (h : s.rst = true) :
    driveRst false s = resetRegisters { s with rst := false } := by
  rw [driveRst, if_neg Bool.false_ne_true, if_pos h]

/-- Settles O9: the release is the next input taken, whatever accesses wait ahead of it, and resets
the registers; the assertion is the next input and drives `rst` alone. -/
theorem rstReleaseResets : Obligations.RstReleaseResets := by
  refine fun s waiting rest => ⟨fun hr hi => ?_, fun hr hi => ?_⟩
  · have hnext : nextInput s.rst s.inputs = some (.rst false, waiting.map .access ++ rest) := by
      rw [hr, hi, nextInput_asserted]
    rw [step_of_rst hnext, driveRst_release ((withInputs_rst _ s).trans hr), resetRegisters_eq]
    rfl
  · have hnext : nextInput s.rst s.inputs = some (.rst true, rest) := by
      rw [hr, hi]
      rfl
    rw [step_of_rst hnext, driveRst_assert]
    rfl

end Sys2Proof.Machine
